-- ==== Sys2Proof/Word.lean ====
section
/-! DEFINITION. The word types of the LCD4 controller: 8-bit operands and bus bytes, the 4-bit data path, the 64-bit
glyph pattern (00_scope.md R10, R13). Every value of the block is unsigned. -/

namespace Sys2Proof

/-- An 8-bit operand, shadow register or bus byte (R10). -/
abbrev Byte := BitVec 8

/-- One nibble of the 4-bit data path; bit 3 is D7, bit 0 is D4 (R10, R41). -/
abbrev Nibble := BitVec 4

/-- The 64-bit pattern operand PAT: eight 8-bit glyph rows (R10, R76). -/
abbrev Pattern := BitVec 64

end Sys2Proof
end

