-- ==== Sys2Proof/Syntax.lean ====
section
/-! DEFINITION. The instructions: one constructor per row of spec/opcode_table.json. The first twenty are the requests
of the request port (30_encoding.md R104); the last thirteen are the transfers of the 4-bit bus (R107, R109). -/

namespace Sys2Proof

/-- A request taken whole (30_encoding.md R100), and the contents of the request latch `S.req` (10_state.md R34). -/
structure Request where
  op : Byte
  a : Byte
  b : Byte
  pat : Pattern
  deriving DecidableEq, Repr

/-- The fields a format-N request leaves ignored (R102). Any value is legal; the latch still takes them (R101). -/
structure Unread where
  a : Byte
  b : Byte
  pat : Pattern
  deriving DecidableEq, Repr

/-- One constructor per row of the opcode table. A request also carries the fields its format ignores, last, because
acceptance latches the request whole (R101, R102). -/
inductive Instr where
  -- requests, format N (R170, R190-R195)
  | init (u : Unread)
  | clear (u : Unread)
  | home (u : Unread)
  | shl (u : Unread)
  | shr (u : Unread)
  | curinc (u : Unread)
  | curdec (u : Unread)
  -- requests, formats RC, A and SP (R211, R216, R214)
  | setcur (row col : Byte) (pat : Pattern)
  | wrchar (c : Byte) (b : Byte) (pat : Pattern)
  | addchar (slot : Byte) (pat : Pattern) (b : Byte)
  -- requests, the toggles, format N (R231-R240)
  | dispoff (u : Unread)
  | dispon (u : Unread)
  | uloff (u : Unread)
  | ulon (u : Unread)
  | blinkoff (u : Unread)
  | blinkon (u : Unread)
  | entdec (u : Unread)
  | entinc (u : Unread)
  | entshoff (u : Unread)
  | entshon (u : Unread)
  -- bus transfers, COMMAND bytes (R107)
  | functionSet
  | displayControl (d c b : Bool)
  | entryMode (id s : Bool)
  | clearDisplay
  | returnHome
  | shiftLeft
  | shiftRight
  | cursorInc
  | cursorDec
  | cgramSet (addr : BitVec 6)
  | ddramSet (addr : BitVec 7)
  -- bus transfers, a DATA byte and a lone nibble (R107, R109)
  | dataByte (byte : Byte)
  | syncNibble (n : Nibble)
  deriving DecidableEq, Repr

/-- The words of the two encodings: a request word with its pattern (R100), or one transfer on the bus, whose form is
the RS level and the length (R107, R109). -/
inductive InstrWord where
  | request (req : BitVec 24) (pat : Pattern)
  | command (byte : Byte)
  | data (byte : Byte)
  | nibble (n : Nibble)
  deriving DecidableEq, Repr

end Sys2Proof
end

