-- ==== Sys2Proof/WellFormed.lean ====
section
/-! DEFINITION. Which instruction terms an encoding has. Every operand value of a request is legal (30_encoding.md R102,
R103: an out-of-range operand is a run-time case, not an ill-formed request), and every operand of a bus byte fills
its field. The one check is the lone nibble, which takes two values (opcode_table.json, row SYNC_NIBBLE; R107). -/

namespace Sys2Proof

/-- The instruction has an encoding in the opcode table. -/
def Instr.wellFormed : Instr → Bool
  | .syncNibble n => n == 0x3#4 || n == 0x2#4
  | _ => true

end Sys2Proof
end

