-- ==== Sys2Proof/Decode.lean ====
section
/-! DEFINITION. The decoder of request words (30_encoding.md R100-R106) and of bus transfers (R107-R109), and the encoder
written from the same tables. Both are total; a word with no row decodes to none. -/

namespace Sys2Proof

/-- R100: `op = REQ[7:0]`, `a = REQ[15:8]`, `b = REQ[23:16]`, and PAT beside the word. -/
def splitRequest (req : BitVec 24) (pat : Pattern) : Request :=
  { op := req.extractLsb' 0 8, a := req.extractLsb' 8 8, b := req.extractLsb' 16 8, pat := pat }

/-- R76, R100: the request word is `REQ = (b, a, op)`, b in the most significant byte. -/
def joinRequest (r : Request) : BitVec 24 := r.b ++ r.a ++ r.op

/-- The fields of a request that format N ignores (R102). -/
def unreadOf (r : Request) : Unread := { a := r.a, b := r.b, pat := r.pat }

/-- R106: 0x00, 0x0B-0x0F and 0x1A-0xFF are reserved. -/
def reservedOp (op : Byte) : Bool :=
  op.toNat == 0x00 || (0x0B ≤ op.toNat && op.toNat ≤ 0x0F) || 0x1A ≤ op.toNat

/-- R104: the opcode map, matched on the whole of `REQ[7:0]`. -/
def decodeRequest (r : Request) : Option Instr :=
  match r.op with
  | 0x01#8 => some (.init (unreadOf r))
  | 0x02#8 => some (.clear (unreadOf r))
  | 0x03#8 => some (.home (unreadOf r))
  | 0x04#8 => some (.shl (unreadOf r))
  | 0x05#8 => some (.shr (unreadOf r))
  | 0x06#8 => some (.curinc (unreadOf r))
  | 0x07#8 => some (.curdec (unreadOf r))
  | 0x08#8 => some (.setcur r.a r.b r.pat)
  | 0x09#8 => some (.wrchar r.a r.b r.pat)
  | 0x0A#8 => some (.addchar r.a r.pat r.b)
  | 0x10#8 => some (.dispoff (unreadOf r))
  | 0x11#8 => some (.dispon (unreadOf r))
  | 0x12#8 => some (.uloff (unreadOf r))
  | 0x13#8 => some (.ulon (unreadOf r))
  | 0x14#8 => some (.blinkoff (unreadOf r))
  | 0x15#8 => some (.blinkon (unreadOf r))
  | 0x16#8 => some (.entdec (unreadOf r))
  | 0x17#8 => some (.entinc (unreadOf r))
  | 0x18#8 => some (.entshoff (unreadOf r))
  | 0x19#8 => some (.entshon (unreadOf r))
  | _ => none

/-- R107 and the BUS-CMD rows of the opcode table: the rows of a byte sent with RS = 0. -/
def decodeCommand (v : Byte) : Option Instr :=
  if v = 0x28#8 then some .functionSet
  else if v &&& 0xF8#8 = 0x08#8 then some (.displayControl (v.getLsbD 2) (v.getLsbD 1) (v.getLsbD 0))
  else if v &&& 0xFC#8 = 0x04#8 then some (.entryMode (v.getLsbD 1) (v.getLsbD 0))
  else if v = 0x01#8 then some .clearDisplay
  else if v = 0x02#8 then some .returnHome
  else if v = 0x18#8 then some .shiftLeft
  else if v = 0x1C#8 then some .shiftRight
  else if v = 0x14#8 then some .cursorInc
  else if v = 0x10#8 then some .cursorDec
  else if v &&& 0xC0#8 = 0x40#8 then some (.cgramSet (v.extractLsb' 0 6))
  else if v &&& 0x80#8 = 0x80#8 then some (.ddramSet (v.extractLsb' 0 7))
  else none

/-- The row SYNC_NIBBLE: a lone nibble is 0x3 or 0x2 (R107, R109). -/
def decodeNibble (n : Nibble) : Option Instr :=
  if n = 0x3#4 ∨ n = 0x2#4 then some (.syncNibble n) else none

/-- The decoder of both encodings. -/
def decode : InstrWord → Option Instr
  | .request req pat => decodeRequest (splitRequest req pat)
  | .command v => decodeCommand v
  | .data v => some (.dataByte v)
  | .nibble n => decodeNibble n

/-- The request a format-N instruction encodes. -/
def requestN (op : Byte) (u : Unread) : Request := { op := op, a := u.a, b := u.b, pat := u.pat }

/-- The DisplayControl byte `0b00001DCB` (R36). -/
def displayControlByte (d c b : Bool) : Byte := 0x01#5 ++ BitVec.ofBool d ++ BitVec.ofBool c ++ BitVec.ofBool b

/-- The EntryMode byte `0b000001(I/D)S` (R37). -/
def entryModeByte (id s : Bool) : Byte := 0x01#6 ++ BitVec.ofBool id ++ BitVec.ofBool s

/-- A CGRAM-set byte: `0b01` above the 6-bit CGRAM address (R71, R107). -/
def cgramSetByte (addr : BitVec 6) : Byte := 0x1#2 ++ addr

/-- A DDRAM-set byte: 1 above the 7-bit DDRAM address (R71, R107). -/
def ddramSetByte (addr : BitVec 7) : Byte := 0x1#1 ++ addr

/-- The word of a request. -/
def requestWord (r : Request) : InstrWord := .request (joinRequest r) r.pat

/-- The encoder: the word of a well-formed instruction, its ignored fields with it (R102, R104, R107). -/
def encode : Instr → InstrWord
  | .init u => requestWord (requestN 0x01#8 u)
  | .clear u => requestWord (requestN 0x02#8 u)
  | .home u => requestWord (requestN 0x03#8 u)
  | .shl u => requestWord (requestN 0x04#8 u)
  | .shr u => requestWord (requestN 0x05#8 u)
  | .curinc u => requestWord (requestN 0x06#8 u)
  | .curdec u => requestWord (requestN 0x07#8 u)
  | .setcur row col pat => requestWord { op := 0x08#8, a := row, b := col, pat := pat }
  | .wrchar c b pat => requestWord { op := 0x09#8, a := c, b := b, pat := pat }
  | .addchar slot pat b => requestWord { op := 0x0A#8, a := slot, b := b, pat := pat }
  | .dispoff u => requestWord (requestN 0x10#8 u)
  | .dispon u => requestWord (requestN 0x11#8 u)
  | .uloff u => requestWord (requestN 0x12#8 u)
  | .ulon u => requestWord (requestN 0x13#8 u)
  | .blinkoff u => requestWord (requestN 0x14#8 u)
  | .blinkon u => requestWord (requestN 0x15#8 u)
  | .entdec u => requestWord (requestN 0x16#8 u)
  | .entinc u => requestWord (requestN 0x17#8 u)
  | .entshoff u => requestWord (requestN 0x18#8 u)
  | .entshon u => requestWord (requestN 0x19#8 u)
  | .functionSet => .command 0x28#8
  | .displayControl d c b => .command (displayControlByte d c b)
  | .entryMode id s => .command (entryModeByte id s)
  | .clearDisplay => .command 0x01#8
  | .returnHome => .command 0x02#8
  | .shiftLeft => .command 0x18#8
  | .shiftRight => .command 0x1C#8
  | .cursorInc => .command 0x14#8
  | .cursorDec => .command 0x10#8
  | .cgramSet addr => .command (cgramSetByte addr)
  | .ddramSet addr => .command (ddramSetByte addr)
  | .dataByte v => .data v
  | .syncNibble n => .nibble n

/-- A table word laid out for its port. A word of more than one byte is a request word, its bits above 23 the
pattern. A one-byte word is the request word with zero operands where its opcode is one of R104, because requests are
the block's instruction set (R3); else it is the bus byte (log 5). -/
def tableWord (nbits w : Nat) : InstrWord :=
  let v : Byte := BitVec.ofNat 8 w
  if 8 < nbits then .request (BitVec.ofNat 24 w) (BitVec.ofNat 64 (w / 2 ^ 24))
  else if reservedOp v = false then .request (BitVec.ofNat 24 (w % 256)) 0#64
  else if (decodeCommand v).isSome then .command v
  else .data v

/-- What the decoder reads from a table row's word. -/
def decodeTableWord (nbits w : Nat) : Option Instr := decode (tableWord nbits w)

end Sys2Proof
end

