-- ==== Sys2Proof/Config.lean ====
section
/-! DEFINITION. What is fixed when the block is built (00_scope.md R8, R9; 40_bus_primitive.md R151): the delays that
have more than one allowed value, bounds checking, and the open base of an invalid row. The timing fields that the
spec gives one value, and every wait's length, are in Machine/Timing.lean. -/

namespace Sys2Proof

/-- The nine timing fields of R8; `WAIT(p)` names one of them. -/
inductive Delay where
  | powerOn | init1 | init2 | init3 | short | long | enable | setup | hold
  deriving DecidableEq, Repr

/-- `T_SHORT_US`, one of 60 and 40 (R8, decision D8). -/
inductive ShortDelay where
  | us60 | us40
  deriving DecidableEq, Repr, Inhabited

/-- `T_LONG_US`, one of 2300 and 1600 (R8, decision D8). -/
inductive LongDelay where
  | us2300 | us1600
  deriving DecidableEq, Repr, Inhabited

/-- The configuration record `cfg` (R8, R9). `tEnMargin` is `T_EN_US - T_SHORT_US`, so that every record meets
`T_EN_US ≥ T_SHORT_US`. `rowBaseInvalid` is `ROW_BASE_INVALID`; it is read only for a row outside 1..4. -/
structure Config where
  tShort : ShortDelay := .us60
  tLong : LongDelay := .us2300
  tEnMargin : Nat := 0
  boundsCheck : Bool := false
  rowBaseInvalid : Byte → Option Byte := fun _ => none
  deriving Inhabited

/-- The defaults of R8 and R9: the configuration of every vector of 95_test_vectors.md. -/
def Config.sim : Config := {}

/-- Variant B of R330: the (40, 1600) pair of R8. -/
def Config.variantB : Config := { Config.sim with tShort := .us40, tLong := .us1600 }

/-- The configuration this block was built with. It has no body: what is proved of the machine holds for every
configuration R8 and R9 allow (assumption log 2). -/
opaque Config.build : Config

end Sys2Proof
end

