-- ==== Sys2Proof/Machine/State.lean ====
section
/-! DEFINITION. The state of the block, field by field as 10_state.md lists it (R30-R48), the events of the bus trace, the
micro-ops of the sequencer (40_bus_primitive.md R140), the host's pending inputs, and the state after reset. -/

namespace Sys2Proof.Machine

/-- The initialization state `S.fsm` (R35). -/
inductive Fsm where
  | uninitialized | resetSequencing | functionSet | ready
  deriving DecidableEq, Repr

/-- The micro-ops of R140. A line level is a Bool, true for 1. -/
inductive MicroOp where
  | cfg
  | rs (m : Bool)
  | d (n : Nibble)
  | en (v : Bool)
  | wait (p : Delay)
  | fsm (f : Fsm)
  | lddc (v : Byte)
  | ldem (v : Byte)
  deriving DecidableEq, Repr

/-- The events of the bus trace (00_scope.md R15); a wait carries its lower bound in microseconds. -/
inductive Event where
  | cfg
  | rs (b : Bool)
  | en (b : Bool)
  | d (n : Nibble)
  | wait (t : Nat)
  deriving DecidableEq, Repr

/-- The four kinds of error (60_exceptions.md R281). -/
inductive ErrorKind where
  | ill | nr | ovr | arg
  deriving DecidableEq, Repr

/-- `S.err`: the sticky error bits ILL, NR, OVR, ARG, bits 0 to 3 (R43). -/
structure Errors where
  ill : Bool
  nr : Bool
  ovr : Bool
  arg : Bool
  deriving DecidableEq, Repr

/-- What the world outside the block does next (00_scope.md R19). -/
inductive Input where
  /-- The host issues a request word (R100), or, for a bus word, one whole transfer is asked for; no host can ask for
  a transfer (log 4). -/
  | word (w : InstrWord)
  /-- The host reads the status word once (R47). -/
  | readStatus
  /-- The host reads the status word until BUSY is 0 (R315, R320); the sequencer runs meanwhile. -/
  | poll
  /-- The outside does nothing; the step is the sequencer's (R141). -/
  | sequencer
  /-- RST is asserted (R310). -/
  | reset
  deriving DecidableEq, Repr

/-- The state of the block. `inputs` is the model's own: what is still to arrive from outside, first one first
(log 3). All other fields are those of R31-R45. -/
structure State where
  /-- micro-program counter (R31) -/
  upc : BitVec 8
  /-- micro-program of the request in progress (R32) -/
  useq : List MicroOp
  /-- 1 from acceptance to completion (R33) -/
  busy : Bool
  /-- request latch (R34) -/
  req : Request
  /-- initialization state (R35) -/
  fsm : Fsm
  /-- DisplayControl shadow register (R36) -/
  dc : Byte
  /-- EntryMode shadow register (R37) -/
  em : Byte
  /-- output latch of RS (R41) -/
  rs : Bool
  /-- output latch of EN (R41) -/
  en : Bool
  /-- output latch of D7..D4 (R41) -/
  d : Nibble
  /-- output enable of the six lines (R42) -/
  oe : Bool
  /-- sticky error bits (R43) -/
  err : Errors
  /-- bus events since reset, oldest first (R45) -/
  trace : List Event
  /-- inputs to come, next first; not a field of the spec -/
  inputs : List Input
  deriving DecidableEq, Repr

/-- What stops the machine. -/
inductive Fault where
  /-- Raised by the sequencer step when BUSY is 1 and no micro-op stands at `upc` (R141 gives no effect). Safe: no
  state that meets the invariant of Safety.lean raises it. -/
  | noMicroOp
  deriving DecidableEq, Repr

/-- What the model gives no meaning. -/
inductive Refusal where
  /-- Raised by an arm of exec whose instruction has no meaning yet. Safe: the run stops. No arm raises it now. -/
  | notModelled (mnemonic : String)
  /-- Raised by a step whose next input is a bus word of no row of the opcode table (R107: the block sends only the
  listed bytes as whole transfers). Safe: the run stops; no host request raises it. -/
  | noBusRow
  deriving DecidableEq, Repr

/-- R43, R48: no error recorded. -/
def Errors.clear : Errors := { ill := false, nr := false, ovr := false, arg := false }

/-- R48: the state after reset. The spec gives a value for every field of its own; nothing is pending (log 3). -/
def State.reset : State :=
  { upc := 0x00#8
    useq := []
    busy := false
    req := { op := 0x00#8, a := 0x00#8, b := 0x00#8, pat := 0#64 }
    fsm := .uninitialized
    dc := 0x0C#8
    em := 0x06#8
    rs := false
    en := false
    d := 0x0#4
    oe := false
    err := Errors.clear
    trace := []
    inputs := [] }

end Sys2Proof.Machine
end

