-- ==== Sys2Proof/Machine/Flags.lean ====
section
/-! DEFINITION. The block's only flags: the sticky error bits (60_exceptions.md R281), and the status word that shows them
(30_encoding.md R120). -/

namespace Sys2Proof.Machine

/-- Set one error bit; the others keep their value (R43). -/
def setError (k : ErrorKind) (e : Errors) : Errors :=
  match k with
  | .ill => { e with ill := true }
  | .nr => { e with nr := true }
  | .ovr => { e with ovr := true }
  | .arg => { e with arg := true }

/-- Whether an error bit is set. -/
def hasError (k : ErrorKind) (e : Errors) : Bool :=
  match k with
  | .ill => e.ill
  | .nr => e.nr
  | .ovr => e.ovr
  | .arg => e.arg

/-- R43, R281: ILL is bit 0, NR bit 1, OVR bit 2, ARG bit 3. -/
def errorBits (e : Errors) : BitVec 4 :=
  BitVec.ofBool e.arg ++ BitVec.ofBool e.ovr ++ BitVec.ofBool e.nr ++ BitVec.ofBool e.ill

/-- R35: the encoding of the initialization state. -/
def fsmCode : Fsm → BitVec 2
  | .uninitialized => 0#2
  | .resetSequencing => 1#2
  | .functionSet => 2#2
  | .ready => 3#2

/-- R120: the status word; bits [31:30] read 0, [29:26] D, 25 EN, 24 RS, [23:20] errors, 19 OE, 18 BUSY, [17:16] FSM,
[15:8] DC, [7:0] EM. Reading it changes nothing (R47). -/
def statusWord (s : State) : BitVec 32 :=
  0#2 ++ s.d ++ BitVec.ofBool s.en ++ BitVec.ofBool s.rs ++ errorBits s.err ++ BitVec.ofBool s.oe
    ++ BitVec.ofBool s.busy ++ fsmCode s.fsm ++ s.dc ++ s.em

end Sys2Proof.Machine
end

