-- ==== Sys2Proof/Machine/Operands.lean ====
section
/-! DEFINITION. The operand forms: nibbles of a byte, rows of the pattern, the two address translators and the range check
(30_encoding.md R103; 43_addressing.md R210-R213). -/

namespace Sys2Proof.Machine

/-- Bits [7:4], sent first on D7..D4 (R75, R142). -/
def hiNibble (v : Byte) : Nibble := v.extractLsb' 4 4

/-- Bits [3:0], sent second (R75, R142). -/
def loNibble (v : Byte) : Nibble := v.extractLsb' 0 4

/-- R76: glyph row i is `PAT[8i+7:8i]`, sent unmasked (R103). -/
def patternRow (pat : Pattern) (i : Nat) : Byte := pat.extractLsb' (8 * i) 8

/-- The row lies in 1..4. -/
def rowValid (row : Byte) : Bool := 1 ≤ row.toNat && row.toNat ≤ 4

/-- The column lies in 1..20. -/
def colValid (col : Byte) : Bool := 1 ≤ col.toNat && col.toNat ≤ 20

/-- The slot lies in 0..7. -/
def slotValid (slot : Byte) : Bool := slot.toNat ≤ 7

/-- R210: the base offset of rows 1 to 4. -/
def rowBase (row : Byte) : Option Byte :=
  match row with
  | 0x01#8 => some 0x7F#8
  | 0x02#8 => some 0xBF#8
  | 0x03#8 => some 0x93#8
  | 0x04#8 => some 0xD3#8
  | _ => none

/-- R210 to R212: the base of any row: the table's for rows 1 to 4, the open parameter's for the others. -/
def cursorBase (cfg : Config) (row : Byte) : Option Byte :=
  match rowBase row with
  | some base => some base
  | none => cfg.rowBaseInvalid row

/-- R210, R212: `(col + base) mod 256`. -/
def wrapAdd (col base : Byte) : Byte := col + base

/-- R213: `(0x40 + 8·slot) mod 256`. -/
def cgramCmd (slot : Byte) : Byte := 0x40#8 + 8#8 * slot

/-- R103: the range check on a request's operands, read only when `BOUNDS_CHECK`. -/
def argsValid (op a b : Byte) : Bool :=
  if op = 0x08#8 then rowValid a && colValid b
  else if op = 0x0A#8 then slotValid a
  else true

end Sys2Proof.Machine
end

