-- ==== Sys2Proof/Machine/Timing.lean ====
section
/-! DEFINITION. The timing engine: the length of each wait (00_scope.md R8), the sums of
waits (40_bus_primitive.md R149), and the cycles a clocked block waits (R12). No step depends on time. -/

namespace Sys2Proof.Machine

/-- `T_SHORT_US` in microseconds (R8). -/
def shortUs (cfg : Config) : Nat := match cfg.tShort with | .us60 => 60 | .us40 => 40

/-- `T_LONG_US` in microseconds (R8). -/
def longUs (cfg : Config) : Nat := match cfg.tLong with | .us2300 => 2300 | .us1600 => 1600

/-- The value of a timing field in microseconds (R8). -/
def delayUs (cfg : Config) : Delay → Nat
  | .powerOn => 40000
  | .init1 => 4100
  | .init2 => 100
  | .init3 => 100
  | .short => shortUs cfg
  | .long => longUs cfg
  | .enable => shortUs cfg + cfg.tEnMargin
  | .setup => 1
  | .hold => 1

/-- The microseconds an event asks to pass. -/
def eventUs : Event → Nat
  | .wait t => t
  | .cfg | .rs _ | .en _ | .d _ => 0

/-- The sum of the waits of a stretch of trace: its least duration (R149). -/
def waitSum (es : List Event) : Nat := (es.map eventUs).sum

/-- The sum of the waits strictly between events i and j (R147). -/
def waitBetween (es : List Event) (i j : Nat) : Nat := waitSum ((es.take j).drop (i + 1))

/-- R12: the least number of clock cycles of a wait of t microseconds at a clock of `fclkHz`. -/
def cyclesOfWait (fclkHz t : Nat) : Nat := (t * fclkHz + 999999) / 1000000

end Sys2Proof.Machine
end

