-- ==== Sys2Proof/Machine/Ops.lean ====
section
/-! DEFINITION. The shared operations: raising an error, the only exception the block has (00_scope.md R15, 60_exceptions.md
R280-R289); the micro-ops and their macros (40_bus_primitive.md R140-R146); acceptance (30_encoding.md R101); the
sequencer step (R141); reset (70_reset_and_hazards.md R310). There is no return from an exception (R289). -/

namespace Sys2Proof.Machine

/-- `raise Err(k)` (R15, R281, R288): sets the sticky bit; the request that raised it has no other effect. -/
def raise (k : ErrorKind) (s : State) : State := { s with err := setError k s.err }

/-- `emit(e)` (R15): appends to the bus trace. -/
def emit (e : Event) (s : State) : State := { s with trace := s.trace ++ [e] }

/-- The effect of one micro-op on the state (R140). -/
def applyOp (cfg : Config) (op : MicroOp) (s : State) : State :=
  match op with
  | .cfg => emit .cfg { s with oe := true, rs := false, en := false, d := 0x0#4 }
  | .rs m => emit (.rs m) { s with rs := m }
  | .d n => emit (.d n) { s with d := n }
  | .en v => emit (.en v) { s with en := v }
  | .wait p => emit (.wait (delayUs cfg p)) s
  | .fsm f => { s with fsm := f }
  | .lddc v => { s with dc := v }
  | .ldem v => { s with em := v }

/-- The effect of a stretch of micro-program, in order (R87, R140). -/
def applyAll (cfg : Config) (ops : List MicroOp) (s : State) : State :=
  ops.foldl (fun t op => applyOp cfg op t) s

/-- The event a micro-op emits, if it emits one (R45, R140). -/
def eventOf (cfg : Config) : MicroOp → Option Event
  | .cfg => some .cfg
  | .rs m => some (.rs m)
  | .d n => some (.d n)
  | .en v => some (.en v)
  | .wait p => some (.wait (delayUs cfg p))
  | .fsm _ | .lddc _ | .ldem _ => none

/-- The events of a stretch of micro-program. -/
def eventsOf (cfg : Config) (ops : List MicroOp) : List Event := ops.filterMap (eventOf cfg)

/-- `PULSE` (R146). -/
def pulse : List MicroOp := [.wait .setup, .en true, .wait .enable, .en false, .wait .hold]

/-- `NIBW(n)` (R142): all four data lines in one event, then a pulse. -/
def nibw (n : Nibble) : List MicroOp := .d n :: pulse

/-- `XFER(v, m)` (R143): RS, then the high nibble, then the low one. `true` is DATA, `false` is COMMAND. -/
def xfer (v : Byte) (m : Bool) : List MicroOp := .rs m :: (nibw (hiNibble v) ++ nibw (loNibble v))

/-- R144: the command bytes that need the long delay as well. -/
def longCommand (v : Byte) : Bool := v == 0x01#8 || v == 0x02#8 || v == 0x03#8

/-- `WCMD(v)` (R144). -/
def wcmd (v : Byte) : List MicroOp :=
  xfer v false ++ .wait .short :: (if longCommand v then [.wait .long] else [])

/-- `WDATA(v)` (R145). -/
def wdata (v : Byte) : List MicroOp := xfer v true ++ [.wait .short]

/-- The accepting branch of R101: latch the request, load its micro-program, and be busy unless it is empty. -/
def upload (r : Request) (ops : List MicroOp) (s : State) : State :=
  { s with req := r, useq := ops, upc := 0x00#8, busy := !ops.isEmpty }

/-- Acceptance of a request whose opcode is not reserved (R101): OVR, then NR, then ARG, else the upload.
`initReq` marks INIT, accepted in every state; `argsOk` is `argsValid`. -/
def issue (cfg : Config) (initReq argsOk : Bool) (r : Request) (ops : List MicroOp) (s : State) : State :=
  if s.busy then raise .ovr s
  else if !initReq && s.fsm != .ready then raise .nr s
  else if !argsOk && cfg.boundsCheck then raise .arg s
  else upload r ops s

/-- A request whose opcode is reserved (R101, R282, R287): OVR while busy, else ILL. -/
def issueReserved (s : State) : State := if s.busy then raise .ovr s else raise .ill s

/-- `S.upc <- S.upc + 1` (R31, R141). -/
def advanceUpc (s : State) : State := { s with upc := s.upc + 1#8 }

/-- The completion of a request (R141): idle, with no micro-program. -/
def complete (s : State) : State := { s with busy := false, upc := 0x00#8, useq := [] }

/-- The sequencer step (R141), for a busy block. -/
def sequencerStep (cfg : Config) (s : State) : Host.Outcome State Fault Refusal :=
  match s.useq[s.upc.toNat]? with
  | none => .fault .noMicroOp
  | some op =>
    let t := advanceUpc (applyOp cfg op s)
    .next (if t.upc.toNat = t.useq.length then complete t else t)

/-- The block's own step: the sequencer's when busy; an idle block has none and keeps its state (R141, R295). -/
def advance (cfg : Config) (s : State) : Host.Outcome State Fault Refusal :=
  if s.busy then sequencerStep cfg s else .next s

/-- RST (R310): every field of the block at its reset value, in one step. What is still to arrive from outside is not
the block's, and stays (log 3). -/
def assertReset (s : State) : State := { State.reset with inputs := s.inputs }

/-- A bus transfer's net effect: its micro-ops, run on the lines and the trace (R140, R143). -/
def transfer (cfg : Config) (ops : List MicroOp) (s : State) : Host.Outcome State Fault Refusal :=
  .next (applyAll cfg ops s)

end Sys2Proof.Machine
end

