-- ==== Sys2Proof/Machine/Addressing.lean ====
section
/-! DEFINITION. SETCUR, ADDCHAR and WRCHAR (43_addressing.md R210-R216). Out-of-range operands run too: their wrapped
byte is sent as a command whatever class it falls in (R215), or the request is refused with ARG when the block is
built with bounds checks (R285). -/

namespace Sys2Proof.Machine

/-- R211, R212: the DDRAM-set command, or nothing for an invalid row whose base is `none`. -/
def setcurProgram (cfg : Config) (row col : Byte) : List MicroOp :=
  match cursorBase cfg row with
  | none => []
  | some base => wcmd (wrapAdd col base)

/-- R214: the CGRAM-set command, the eight rows, row 0 first, and the DDRAM-set command of (1, 1), 0x80. -/
def addcharProgram (slot : Byte) (pat : Pattern) : List MicroOp :=
  wcmd (cgramCmd slot)
    ++ wdata (patternRow pat 0) ++ wdata (patternRow pat 1) ++ wdata (patternRow pat 2) ++ wdata (patternRow pat 3)
    ++ wdata (patternRow pat 4) ++ wdata (patternRow pat 5) ++ wdata (patternRow pat 6) ++ wdata (patternRow pat 7)
    ++ wcmd 0x80#8

/-- R216: WDATA(c). -/
def wrcharProgram (c : Byte) : List MicroOp := wdata c

/-- SETCUR under a given configuration (R211). -/
def setcurUnder (cfg : Config) (row col : Byte) (pat : Pattern) (s : State) : State :=
  issue cfg false (argsValid 0x08#8 row col) { op := 0x08#8, a := row, b := col, pat := pat } (setcurProgram cfg row col) s

/-- ADDCHAR under a given configuration (R214). -/
def addcharUnder (cfg : Config) (slot : Byte) (pat : Pattern) (b : Byte) (s : State) : State :=
  issue cfg false (argsValid 0x0A#8 slot b) { op := 0x0A#8, a := slot, b := b, pat := pat } (addcharProgram slot pat) s

/-- SETCUR (R211). -/
def execSetcur (row col : Byte) (pat : Pattern) (s : State) : Host.Outcome State Fault Refusal :=
  .next (setcurUnder Config.build row col pat s)

/-- ADDCHAR (R214). -/
def execAddchar (slot : Byte) (pat : Pattern) (b : Byte) (s : State) : Host.Outcome State Fault Refusal :=
  .next (addcharUnder Config.build slot pat b s)

/-- WRCHAR (R216). -/
def execWrchar (c b : Byte) (pat : Pattern) (s : State) : Host.Outcome State Fault Refusal :=
  .next (issue Config.build false true { op := 0x09#8, a := c, b := b, pat := pat } (wrcharProgram c) s)

end Sys2Proof.Machine
end

