-- ==== Sys2Proof/Machine/Bus.lean ====
section
/-! DEFINITION. The rows of the opcode table whose format begins BUS: one whole transfer of the 4-bit bus each
(30_encoding.md R107, R109). A row's meaning is the net effect of its macro (40_bus_primitive.md R142-R145) on the lines
and the trace. Requests reach the bus through these same macros, one micro-op a step. -/

namespace Sys2Proof.Machine

/-- FUNCTION_SET (R107, R173). -/
def execFunctionSet (s : State) : Host.Outcome State Fault Refusal :=
  transfer Config.build (wcmd 0x28#8) s

/-- DISPLAY_CONTROL (R36, R107). -/
def execDisplayControl (d c b : Bool) (s : State) : Host.Outcome State Fault Refusal :=
  transfer Config.build (wcmd (displayControlByte d c b)) s

/-- ENTRY_MODE (R37, R107). -/
def execEntryMode (id sh : Bool) (s : State) : Host.Outcome State Fault Refusal :=
  transfer Config.build (wcmd (entryModeByte id sh)) s

/-- CLEAR_DISPLAY (R107, R190). -/
def execClearDisplay (s : State) : Host.Outcome State Fault Refusal :=
  transfer Config.build (wcmd 0x01#8) s

/-- RETURN_HOME (R107, R191). -/
def execReturnHome (s : State) : Host.Outcome State Fault Refusal :=
  transfer Config.build (wcmd 0x02#8) s

/-- SHIFT_LEFT (R107, R192). -/
def execShiftLeft (s : State) : Host.Outcome State Fault Refusal :=
  transfer Config.build (wcmd 0x18#8) s

/-- SHIFT_RIGHT (R107, R193). -/
def execShiftRight (s : State) : Host.Outcome State Fault Refusal :=
  transfer Config.build (wcmd 0x1C#8) s

/-- CURSOR_INC (R107, R194). -/
def execCursorInc (s : State) : Host.Outcome State Fault Refusal :=
  transfer Config.build (wcmd 0x14#8) s

/-- CURSOR_DEC (R107, R195). -/
def execCursorDec (s : State) : Host.Outcome State Fault Refusal :=
  transfer Config.build (wcmd 0x10#8) s

/-- CGRAM_SET (R107, R213). -/
def execCgramSet (addr : BitVec 6) (s : State) : Host.Outcome State Fault Refusal :=
  transfer Config.build (wcmd (cgramSetByte addr)) s

/-- DDRAM_SET (R107, R210). -/
def execDdramSet (addr : BitVec 7) (s : State) : Host.Outcome State Fault Refusal :=
  transfer Config.build (wcmd (ddramSetByte addr)) s

/-- DATA_BYTE (R107, R145). -/
def execDataByte (v : Byte) (s : State) : Host.Outcome State Fault Refusal :=
  transfer Config.build (wdata v) s

/-- SYNC_NIBBLE (R109, R142): NIBW(n). NIBW does not touch RS; in INIT it is 0, because CFG drove it to 0 (R170). -/
def execSyncNibble (n : Nibble) (s : State) : Host.Outcome State Fault Refusal :=
  transfer Config.build (nibw n) s

end Sys2Proof.Machine
end

