-- ==== Sys2Proof/Machine/Commands.lean ====
section
/-! DEFINITION. The fixed commands CLEAR, HOME, SHL, SHR, CURINC and CURDEC (42_commands.md R190-R195). -/

namespace Sys2Proof.Machine

/-- R190: WCMD(0x01), then the EntryMode shadow of the moment of acceptance. -/
def clearProgram (em : Byte) : List MicroOp := wcmd 0x01#8 ++ wcmd em

/-- CLEAR (R190). -/
def execClear (u : Unread) (s : State) : Host.Outcome State Fault Refusal :=
  .next (issue Config.build false true (requestN 0x02#8 u) (clearProgram s.em) s)

/-- R191: WCMD(0x02); no re-send. -/
def homeProgram : List MicroOp := wcmd 0x02#8

/-- HOME (R191). -/
def execHome (u : Unread) (s : State) : Host.Outcome State Fault Refusal :=
  .next (issue Config.build false true (requestN 0x03#8 u) homeProgram s)

/-- R192: WCMD(0x18). -/
def shlProgram : List MicroOp := wcmd 0x18#8

/-- SHL (R192). -/
def execShl (u : Unread) (s : State) : Host.Outcome State Fault Refusal :=
  .next (issue Config.build false true (requestN 0x04#8 u) shlProgram s)

/-- R193: WCMD(0x1C). -/
def shrProgram : List MicroOp := wcmd 0x1C#8

/-- SHR (R193). -/
def execShr (u : Unread) (s : State) : Host.Outcome State Fault Refusal :=
  .next (issue Config.build false true (requestN 0x05#8 u) shrProgram s)

/-- R194: WCMD(0x14). -/
def curincProgram : List MicroOp := wcmd 0x14#8

/-- CURINC (R194). -/
def execCurinc (u : Unread) (s : State) : Host.Outcome State Fault Refusal :=
  .next (issue Config.build false true (requestN 0x06#8 u) curincProgram s)

/-- R195: WCMD(0x10). -/
def curdecProgram : List MicroOp := wcmd 0x10#8

/-- CURDEC (R195). -/
def execCurdec (u : Unread) (s : State) : Host.Outcome State Fault Refusal :=
  .next (issue Config.build false true (requestN 0x07#8 u) curdecProgram s)

end Sys2Proof.Machine
end

