-- ==== Sys2Proof/Machine/Init.lean ====
section
/-! DEFINITION. INIT and its micro-program (41_init.md R170-R174). -/

namespace Sys2Proof.Machine

/-- The default DisplayControl value, display on, no cursor, no blink (R48, R170). -/
def dcDefault : Byte := 0x0C#8

/-- The default EntryMode value, increment, no shift (R48, R170). -/
def emDefault : Byte := 0x06#8

/-- R170: Uninitialized to ResetSequencing. -/
def initPowerOn : List MicroOp := [.fsm .uninitialized, .cfg, .wait .powerOn, .fsm .resetSequencing]

/-- R170: the four lone nibbles and their waits. -/
def initSync : List MicroOp :=
  nibw 0x3#4 ++ [.wait .init1] ++ nibw 0x3#4 ++ [.wait .init2] ++ nibw 0x3#4 ++ [.wait .init3]
    ++ nibw 0x2#4 ++ [.wait .init3]

/-- R170: FUNCTION_SET, the shadow defaults, their bytes, and the full clear. -/
def initConfigure : List MicroOp :=
  [.fsm .functionSet] ++ wcmd 0x28#8 ++ [.fsm .ready, .lddc dcDefault, .ldem emDefault]
    ++ wcmd dcDefault ++ wcmd emDefault ++ wcmd 0x01#8 ++ wcmd emDefault

/-- The micro-program of INIT (R170). -/
def initProgram : List MicroOp := initPowerOn ++ initSync ++ initConfigure

/-- INIT (R170): accepted in every initialization state (R172). -/
def execInit (u : Unread) (s : State) : Host.Outcome State Fault Refusal :=
  .next (issue Config.build true true (requestN 0x01#8 u) initProgram s)

end Sys2Proof.Machine
end

