-- ==== Sys2Proof/Machine/Toggles.lean ====
section
/-! DEFINITION. The ten display-control and entry-mode toggles (44_toggles.md R230-R241): the shadow is written first, then
sent whole. The shadow is read at acceptance (R140, R230). -/

namespace Sys2Proof.Machine

/-- R230 for a DisplayControl bit: LDDC(new), then WCMD(new). -/
def dcProgram (new : Byte) : List MicroOp := .lddc new :: wcmd new

/-- R230 for an EntryMode bit: LDEM(new), then WCMD(new). -/
def emProgram (new : Byte) : List MicroOp := .ldem new :: wcmd new

/-- `reg with bit <- val` of R230. -/
def setBit (reg : Byte) (bit : Nat) (val : Bool) : Byte :=
  if val then reg ||| BitVec.twoPow 8 bit else reg &&& ~~~(BitVec.twoPow 8 bit)

/-- The mechanism of R230, read from a toggle's opcode: `sel = op[3:1]`, `val = op[0]` (R105). Selectors 5 to 7 are
reserved and load nothing. -/
def toggleProgram (op dc em : Byte) : List MicroOp :=
  match (op.extractLsb' 1 3).toNat with
  | 0 => dcProgram (setBit dc 2 (op.getLsbD 0))
  | 1 => dcProgram (setBit dc 1 (op.getLsbD 0))
  | 2 => dcProgram (setBit dc 0 (op.getLsbD 0))
  | 3 => emProgram (setBit em 1 (op.getLsbD 0))
  | 4 => emProgram (setBit em 0 (op.getLsbD 0))
  | _ => []

/-- DISPOFF (R231). -/
def execDispoff (u : Unread) (s : State) : Host.Outcome State Fault Refusal :=
  .next (issue Config.build false true (requestN 0x10#8 u) (dcProgram (s.dc &&& ~~~0x04#8)) s)

/-- DISPON (R232). -/
def execDispon (u : Unread) (s : State) : Host.Outcome State Fault Refusal :=
  .next (issue Config.build false true (requestN 0x11#8 u) (dcProgram (s.dc ||| 0x04#8)) s)

/-- ULOFF (R233). -/
def execUloff (u : Unread) (s : State) : Host.Outcome State Fault Refusal :=
  .next (issue Config.build false true (requestN 0x12#8 u) (dcProgram (s.dc &&& ~~~0x02#8)) s)

/-- ULON (R234). -/
def execUlon (u : Unread) (s : State) : Host.Outcome State Fault Refusal :=
  .next (issue Config.build false true (requestN 0x13#8 u) (dcProgram (s.dc ||| 0x02#8)) s)

/-- BLINKOFF (R235). -/
def execBlinkoff (u : Unread) (s : State) : Host.Outcome State Fault Refusal :=
  .next (issue Config.build false true (requestN 0x14#8 u) (dcProgram (s.dc &&& ~~~0x01#8)) s)

/-- BLINKON (R236). -/
def execBlinkon (u : Unread) (s : State) : Host.Outcome State Fault Refusal :=
  .next (issue Config.build false true (requestN 0x15#8 u) (dcProgram (s.dc ||| 0x01#8)) s)

/-- ENTDEC (R237). -/
def execEntdec (u : Unread) (s : State) : Host.Outcome State Fault Refusal :=
  .next (issue Config.build false true (requestN 0x16#8 u) (emProgram (s.em &&& ~~~0x02#8)) s)

/-- ENTINC (R238). -/
def execEntinc (u : Unread) (s : State) : Host.Outcome State Fault Refusal :=
  .next (issue Config.build false true (requestN 0x17#8 u) (emProgram (s.em ||| 0x02#8)) s)

/-- ENTSHOFF (R239). -/
def execEntshoff (u : Unread) (s : State) : Host.Outcome State Fault Refusal :=
  .next (issue Config.build false true (requestN 0x18#8 u) (emProgram (s.em &&& ~~~0x01#8)) s)

/-- ENTSHON (R240). -/
def execEntshon (u : Unread) (s : State) : Host.Outcome State Fault Refusal :=
  .next (issue Config.build false true (requestN 0x19#8 u) (emProgram (s.em ||| 0x01#8)) s)

end Sys2Proof.Machine
end

