-- ==== Sys2Proof/Machine/Dispatch.lean ====
section
/-! DEFINITION. The meaning of every instruction, one arm per constructor. -/

namespace Sys2Proof.Machine

def exec (i : Instr) (s : State) : Host.Outcome State Fault Refusal :=
  match i with
  | .init u => Sys2Proof.Machine.execInit u s
  | .clear u => Sys2Proof.Machine.execClear u s
  | .home u => Sys2Proof.Machine.execHome u s
  | .shl u => Sys2Proof.Machine.execShl u s
  | .shr u => Sys2Proof.Machine.execShr u s
  | .curinc u => Sys2Proof.Machine.execCurinc u s
  | .curdec u => Sys2Proof.Machine.execCurdec u s
  | .setcur row col pat => Sys2Proof.Machine.execSetcur row col pat s
  | .wrchar c b pat => Sys2Proof.Machine.execWrchar c b pat s
  | .addchar slot pat b => Sys2Proof.Machine.execAddchar slot pat b s
  | .dispoff u => Sys2Proof.Machine.execDispoff u s
  | .dispon u => Sys2Proof.Machine.execDispon u s
  | .uloff u => Sys2Proof.Machine.execUloff u s
  | .ulon u => Sys2Proof.Machine.execUlon u s
  | .blinkoff u => Sys2Proof.Machine.execBlinkoff u s
  | .blinkon u => Sys2Proof.Machine.execBlinkon u s
  | .entdec u => Sys2Proof.Machine.execEntdec u s
  | .entinc u => Sys2Proof.Machine.execEntinc u s
  | .entshoff u => Sys2Proof.Machine.execEntshoff u s
  | .entshon u => Sys2Proof.Machine.execEntshon u s
  | .functionSet => Sys2Proof.Machine.execFunctionSet s
  | .displayControl d c b => Sys2Proof.Machine.execDisplayControl d c b s
  | .entryMode id sh => Sys2Proof.Machine.execEntryMode id sh s
  | .clearDisplay => Sys2Proof.Machine.execClearDisplay s
  | .returnHome => Sys2Proof.Machine.execReturnHome s
  | .shiftLeft => Sys2Proof.Machine.execShiftLeft s
  | .shiftRight => Sys2Proof.Machine.execShiftRight s
  | .cursorInc => Sys2Proof.Machine.execCursorInc s
  | .cursorDec => Sys2Proof.Machine.execCursorDec s
  | .cgramSet addr => Sys2Proof.Machine.execCgramSet addr s
  | .ddramSet addr => Sys2Proof.Machine.execDdramSet addr s
  | .dataByte v => Sys2Proof.Machine.execDataByte v s
  | .syncNibble n => Sys2Proof.Machine.execSyncNibble n s

end Sys2Proof.Machine
end

