-- ==== Sys2Proof/Machine/Step.lean ====
section
/-! DEFINITION. One step of the machine: the next input from outside, or the block's own step when nothing is pending
(00_scope.md R19; 40_bus_primitive.md R141). -/

namespace Sys2Proof.Machine

/-- The bits of a table row placed where the next step fetches: at the head of the pending inputs. A bus transfer is
taken by an idle block, so for one the request in progress, if any, is dropped. -/
def State.withFetchWord (s : State) (nbits w : Nat) : State :=
  match tableWord nbits w with
  | .request req pat => { s with inputs := .word (.request req pat) :: s.inputs }
  | bus => { s with busy := false, upc := 0x00#8, useq := [], inputs := .word bus :: s.inputs }

/-- A step. A request is accepted or dropped at once, whatever the sequencer is doing (R101, R141). A bus transfer
waits until the block is idle (R78). -/
def step (s : State) : Host.Outcome State Fault Refusal :=
  match s.inputs with
  | [] => advance Config.build s
  | .sequencer :: rest => advance Config.build { s with inputs := rest }
  | .readStatus :: rest => .next { s with inputs := rest }
  | .poll :: rest => if s.busy then advance Config.build s else .next { s with inputs := rest }
  | .reset :: rest => .next (assertReset { s with inputs := rest })
  | .word (.request req pat) :: rest =>
    match decode (.request req pat) with
    | some i => exec i { s with inputs := rest }
    | none => .next (issueReserved { s with inputs := rest })
  | .word w :: rest =>
    if s.busy then advance Config.build s
    else match decode w with
      | some i => exec i { s with inputs := rest }
      | none => .refused .noBusRow

end Sys2Proof.Machine
end

