-- ==== Sys2Proof/Machine/Rendering.lean ====
section
/-! DEFINITION. The host reference of 48_host_rendering.md R250-R259: the requests a host issues for each operation that has
no opcode (30_encoding.md R112). It is outside the block (00_scope.md R7(c)); no step reads it. The open parameters of
R11 are arguments, and so are the draws the spec leaves unconstrained (log 10). -/

namespace Sys2Proof.Machine

/-- Ignored fields left at zero, as the vectors of 95_test_vectors.md leave them. -/
def noFields : Unread := { a := 0x00#8, b := 0x00#8, pat := 0#64 }

/-- `WRCHAR c`. -/
def putChar (c : Byte) : Instr := .wrchar c 0x00#8 0#64

/-- `SETDISP v` (R250). -/
def setDisp (v : Bool) : Instr := if v then .dispon noFields else .dispoff noFields

/-- `SETUL v` (R250). -/
def setUl (v : Bool) : Instr := if v then .ulon noFields else .uloff noFields

/-- `SETBLINK v` (R250). -/
def setBlink (v : Bool) : Instr := if v then .blinkon noFields else .blinkoff noFields

/-- `SETENTINC v` (R250). -/
def setEntInc (v : Bool) : Instr := if v then .entinc noFields else .entdec noFields

/-- `SETENTSH v` (R250). -/
def setEntSh (v : Bool) : Instr := if v then .entshon noFields else .entshoff noFields

/-- `WRSTR s` over a bounded sequence (R251). -/
def wrStr (s : List Byte) : List Instr := s.map putChar

/-- The sentinel form (R252): up to the first 0x00; unterminated input is refused. -/
def wrStrSentinel : List Byte → Option (List Instr)
  | [] => none
  | c :: cs => if c = 0x00#8 then some [] else (wrStrSentinel cs).map (putChar c :: ·)

/-- The digits of m, counted with fuel. -/
def digitCountWithin : Nat → Nat → Nat
  | 0, _ => 1
  | fuel + 1, m => if m < 10 then 1 else digitCountWithin fuel (m / 10) + 1

/-- R254: 1 for m = 0, else the least n with m < 10^n. -/
def digitCount (m : Nat) : Nat := digitCountWithin m m

/-- The ASCII digit of a decimal digit. -/
def digitChar (n : Nat) : Byte := 0x30#8 + BitVec.ofNat 8 (n % 10)

/-- `WRNAT m, L` (R253): padding spaces, then the digits, most significant first. -/
def wrNat (m L : Nat) : List Instr :=
  let n := digitCount m
  List.replicate (L - n) (putChar 0x20#8)
    ++ (List.range n).reverse.map fun k => putChar (digitChar (m / 10 ^ k))

/-- `WRINT v, L` for any `INT_W` (R255): the exact magnitude, the sign never written. -/
def wrInt {w : Nat} (v : BitVec w) (L : Byte) : List Instr := wrNat v.toInt.natAbs L.toNat

/-- The open parameter `FLT` (R11): a floating-point format. `trunc` answers none for NaN and the infinities. -/
structure FloatFormat where
  Value : Type
  magnitude : Value → Value
  trunc : Value → Option Nat
  ofNat : Nat → Value
  sub : Value → Value → Value
  mul : Value → Value → Value

/-- What is left free in WRFLOAT: digit k of a fraction past `UINT_W`, one of the ten decimal digits
(93_implementation_defined.md I19), and all the characters of a value whose integer part has no exact `UINT_W`-bit form
(R259, I20). -/
structure RenderDraws where
  digit : Nat → Fin 10
  special : List Byte

/-- The character drawn for digit k: any of 0x30-0x39, and no other (I19). -/
def RenderDraws.digitByte (draws : RenderDraws) (k : Nat) : Byte := digitChar (draws.digit k).val

/-- R257: `L - F - 1` when `L ≥ F + 1`, else 0, in exact integers. -/
def effectiveOffset (L F : Nat) : Nat := if F + 1 ≤ L then L - F - 1 else 0

/-- R258: n fraction digits from the k-th on, read literally: multiply by 10, take the last digit of the whole part.
`draw k` stands for digit k where the whole part is past `UINT_W`. -/
def fractionDigits (fmt : FloatFormat) (uintW : Nat) (draw : Nat → Byte) : Nat → Nat → fmt.Value → List Byte
  | 0, _, _ => []
  | n + 1, k, fr =>
    let fr' := fmt.mul fr (fmt.ofNat 10)
    let digit := match fmt.trunc fr' with
      | some t => if t < 2 ^ uintW then digitChar t else draw k
      | none => draw k
    digit :: fractionDigits fmt uintW draw n (k + 1) fr'

/-- The expansion of R256 and R259 for given draws. The words of R258 admit any byte as a draw, and here `draw` is any;
`wrFloat` keeps the bound of I19 (log 10). -/
def wrFloatWith (fmt : FloatFormat) (uintW : Nat) (draw : Nat → Byte) (special : List Byte) (x : fmt.Value) (L F : Byte) :
    List Instr :=
  let mag := fmt.magnitude x
  match fmt.trunc mag with
  | none => special.map putChar
  | some ip =>
    if ip < 2 ^ uintW then
      wrNat ip (effectiveOffset L.toNat F.toNat) ++ putChar 0x2E#8
        :: (fractionDigits fmt uintW draw F.toNat 0 (fmt.sub mag (fmt.ofNat ip))).map putChar
    else special.map putChar

/-- `WRFLOAT x, L, F` (R256, R258, R259), each drawn digit within 0x30-0x39 (I19). -/
def wrFloat (fmt : FloatFormat) (uintW : Nat) (draws : RenderDraws) (x : fmt.Value) (L F : Byte) : List Instr :=
  wrFloatWith fmt uintW draws.digitByte draws.special x L F

/-- A binary32 value: `finite neg m e` is m · 2^(e - 149), m below 2^24. -/
inductive Binary32 where
  | finite (neg : Bool) (m e : Nat)
  | infinite (neg : Bool)
  | nan
  deriving DecidableEq, Repr

/-- m / 2^k to the nearest integer, ties to even. -/
def roundHalfEven (m k : Nat) : Nat :=
  let q := m / 2 ^ k
  let r := 2 * (m % 2 ^ k)
  if r < 2 ^ k then q else if 2 ^ k < r then q + 1 else q + q % 2

/-- The binary32 nearest to p · 2^(e - 298). -/
def round32 (neg : Bool) (p e : Nat) : Binary32 :=
  let k := max (149 - e) (Nat.log2 p + 1 - 24)
  let q := roundHalfEven p k
  if 2 ^ 128 * 2 ^ 149 ≤ q * 2 ^ (e + k - 149) then .infinite neg else .finite neg q (e + k - 149)

/-- Round-to-nearest-even multiplication of finite magnitudes; an infinity or a NaN stays one. -/
def mul32 : Binary32 → Binary32 → Binary32
  | .finite n m e, .finite n' m' e' => round32 (n != n') (m * m') (e + e')
  | .nan, _ | _, .nan => .nan
  | .infinite n, .finite n' m _ | .finite n' m _, .infinite n => if m = 0 then .nan else .infinite (n != n')
  | .infinite n, .infinite n' => .infinite (n != n')

/-- Round-to-nearest-even subtraction, the first operand not negative and the second not negative: all WRFLOAT needs. -/
def sub32 : Binary32 → Binary32 → Binary32
  | .finite _ m e, .finite _ m' e' =>
    let low := min e e'
    let x := m * 2 ^ (e - low)
    let y := m' * 2 ^ (e' - low)
    round32 (x < y) (max x y - min x y) (low + 149)
  | .nan, _ | _, .nan => .nan
  | .infinite n, .finite _ _ _ => .infinite n
  | .finite _ _ _, .infinite n => .infinite (!n)
  | .infinite _, .infinite _ => .nan

/-- The simulation default of `FLT` (R11): IEEE 754 binary32, round to nearest, ties to even. -/
def FloatFormat.binary32 : FloatFormat where
  Value := Binary32
  magnitude
    | .finite _ m e => .finite false m e
    | .infinite _ => .infinite false
    | .nan => .nan
  trunc
    | .finite _ m e => some (if 149 ≤ e then m * 2 ^ (e - 149) else m / 2 ^ (149 - e))
    | .infinite _ | .nan => none
  ofNat n := round32 false n 298
  sub := sub32
  mul := mul32

/-- The value of a binary32 bit pattern. -/
def binary32OfBits (b : BitVec 32) : Binary32 :=
  let frac := (b.extractLsb' 0 23).toNat
  let ex := (b.extractLsb' 23 8).toNat
  if ex = 255 then (if frac = 0 then .infinite (b.getLsbD 31) else .nan)
  else if ex = 0 then .finite (b.getLsbD 31) frac 0
  else .finite (b.getLsbD 31) (2 ^ 23 + frac) (ex - 1)

end Sys2Proof.Machine
end

