-- ==== Sys2Proof/Machine/Assembler.lean ====
section
/-! DEFINITION. The request syntax of 30_encoding.md R111: one request per line, operands separated by commas, each a
decimal, `0x`, `0b` or character literal that fits in 8 bits, a comment after `;`; and the Boolean pseudo-instructions
of R112. No step reads it. -/

namespace Sys2Proof.Machine

/-- The pieces of a line. -/
inductive Token where
  | text (cs : List Char)
  | quoted (c : Char)
  | comma
  deriving DecidableEq, Repr

/-- Close the word under way; its characters are held last first. -/
def flushWord (word : List Char) (ts : List Token) : List Token :=
  if word.isEmpty then ts else .text word.reverse :: ts

/-- Split a line into tokens. A comment ends the line. -/
def tokens (word : List Char) : List Char → List Token
  | [] => flushWord word []
  | '\'' :: c :: '\'' :: rest => flushWord word (.quoted c :: tokens [] rest)
  | c :: rest =>
    if c = ';' then flushWord word []
    else if c = ',' then flushWord word (.comma :: tokens [] rest)
    else if c = ' ' ∨ c = '\t' then flushWord word (tokens [] rest)
    else tokens (c :: word) rest

/-- The value of a digit in any base up to 16. -/
def digitValue (c : Char) : Nat :=
  let n := c.toNat
  if 0x30 ≤ n ∧ n ≤ 0x39 then n - 0x30
  else if 0x41 ≤ n ∧ n ≤ 0x46 then n - 0x37
  else if 0x61 ≤ n ∧ n ≤ 0x66 then n - 0x57
  else 16

/-- A number in a base, its digits most significant first. -/
def numberIn (base : Nat) (cs : List Char) : Option Nat :=
  if cs.isEmpty then none
  else cs.foldl (fun acc c => acc.bind fun n => if digitValue c < base then some (n * base + digitValue c) else none)
    (some 0)

/-- The value of an operand (R111). -/
def operandValue : Token → Option Nat
  | .quoted c => if c.toNat < 128 then some c.toNat else none
  | .text ('0' :: 'x' :: cs) => numberIn 16 cs
  | .text ('0' :: 'b' :: cs) => numberIn 2 cs
  | .text cs => numberIn 10 cs
  | .comma => none

/-- An operand that fits in 8 bits (R111). -/
def operandByte (t : Token) : Option Byte :=
  (operandValue t).bind fun n => if n < 256 then some (BitVec.ofNat 8 n) else none

/-- Operands separated by commas. -/
def operands : List Token → Option (List Byte)
  | [] => some []
  | [t] => (operandByte t).map fun v => [v]
  | t :: .comma :: rest =>
    match rest with
    | [] => none
    | _ :: _ => (operandByte t).bind fun v => (operands rest).map fun vs => v :: vs
  | _ :: _ :: _ => none

/-- The pattern operand of eight rows, row 0 in the low byte (R76, R111). -/
def packRows (p0 p1 p2 p3 p4 p5 p6 p7 : Byte) : Pattern := p7 ++ p6 ++ p5 ++ p4 ++ p3 ++ p2 ++ p1 ++ p0

/-- The request of a mnemonic without operands. -/
def plainRequest (name : List Char) : Option Instr :=
  if name = "INIT".toList then some (.init noFields)
  else if name = "CLEAR".toList then some (.clear noFields)
  else if name = "HOME".toList then some (.home noFields)
  else if name = "SHL".toList then some (.shl noFields)
  else if name = "SHR".toList then some (.shr noFields)
  else if name = "CURINC".toList then some (.curinc noFields)
  else if name = "CURDEC".toList then some (.curdec noFields)
  else if name = "DISPOFF".toList then some (.dispoff noFields)
  else if name = "DISPON".toList then some (.dispon noFields)
  else if name = "ULOFF".toList then some (.uloff noFields)
  else if name = "ULON".toList then some (.ulon noFields)
  else if name = "BLINKOFF".toList then some (.blinkoff noFields)
  else if name = "BLINKON".toList then some (.blinkon noFields)
  else if name = "ENTDEC".toList then some (.entdec noFields)
  else if name = "ENTINC".toList then some (.entinc noFields)
  else if name = "ENTSHOFF".toList then some (.entshoff noFields)
  else if name = "ENTSHON".toList then some (.entshon noFields)
  else none

/-- The request of a mnemonic with one operand: WRCHAR and the Boolean forms (R112). -/
def unaryRequest (name : List Char) (v : Byte) : Option Instr :=
  if name = "WRCHAR".toList then some (putChar v)
  else if name = "SETDISP".toList then some (setDisp (v != 0x00#8))
  else if name = "SETUL".toList then some (setUl (v != 0x00#8))
  else if name = "SETBLINK".toList then some (setBlink (v != 0x00#8))
  else if name = "SETENTINC".toList then some (setEntInc (v != 0x00#8))
  else if name = "SETENTSH".toList then some (setEntSh (v != 0x00#8))
  else none

/-- The request of a mnemonic and its operands. A WRSTR, WRINT or WRFLOAT line is no line of this syntax. DESIGN CHOICE
(log 12): R112 names these three and R111 gives no string, signed or fraction operand; a host calls `wrStr`, `wrInt` and
`wrFloat`. -/
def assemble (name : List Char) : List Byte → Option Instr
  | [] => plainRequest name
  | [v] => unaryRequest name v
  | [row, col] => if name = "SETCUR".toList then some (.setcur row col 0#64) else none
  | [slot, p0, p1, p2, p3, p4, p5, p6, p7] =>
    if name = "ADDCHAR".toList then some (.addchar slot (packRows p0 p1 p2 p3 p4 p5 p6 p7) 0x00#8) else none
  | _ => none

/-- One line: none where it is no line of the syntax, no request where it is blank or a comment. -/
def assembleLine (line : List Char) : Option (List Instr) :=
  match tokens [] line with
  | [] => some []
  | .text name :: rest => (operands rest).bind fun vs => (assemble name vs).map fun i => [i]
  | .quoted _ :: _ | .comma :: _ => none

/-- A hexadecimal digit, in capitals. -/
def hexChar (n : Nat) : Char := if n < 10 then Char.ofNat (0x30 + n) else Char.ofNat (0x37 + n)

/-- n hexadecimal digits of a word, most significant first. -/
def hexChars (n w : Nat) : List Char := (List.range n).reverse.map fun k => hexChar (w / 16 ^ k % 16)

/-- The encoded request word as R111 writes it: `REQ=0xBBAAOO`, with `PAT=0x…` for ADDCHAR. -/
def wordText (i : Instr) : List Char :=
  match encode i with
  | .request req pat =>
    "REQ=0x".toList ++ hexChars 6 req.toNat
      ++ (if req.extractLsb' 0 8 = 0x0A#8 then " PAT=0x".toList ++ hexChars 16 pat.toNat else [])
  | .command _ | .data _ | .nibble _ => []

end Sys2Proof.Machine
end

