-- ==== Sys2Proof/Machine/Observe.lean ====
section
/-! DEFINITION. What an observer of the block sees: the pins (10_state.md R41, R42) and the bytes on the bus, the trace
decoder of 30_encoding.md R109 and R110. No step reads them. -/

namespace Sys2Proof.Machine

/-- The levels of the six lines. -/
structure Pins where
  rs : Bool
  en : Bool
  d : Nibble
  deriving DecidableEq, Repr

/-- R42: each pin carries its latch while OE is 1; while OE is 0 the block drives no line, and the levels are whatever
the board gives (`floating`, any value: 93_implementation_defined.md I2). -/
def pins (floating : Pins) (s : State) : Pins := if s.oe then { rs := s.rs, en := s.en, d := s.d } else floating

/-- What the trace decoder reads (R110). -/
inductive BusItem where
  | cfg
  | nib (n : Nibble)
  | cmd (v : Byte)
  | dat (v : Byte)
  deriving DecidableEq, Repr

/-- The decoder's place in a trace: the levels it keeps, the lone nibbles still to come after a `Cfg` (R109), the high
nibble of a byte under way with its RS, the items read so far, oldest first, and the waits: the sums between samples
read so far, and the sum since the last sample. -/
structure Decoder where
  rs : Bool
  d : Nibble
  en : Bool
  lone : Nat
  high : Option (Bool × Nibble)
  items : List BusItem
  waits : List Nat
  since : Nat
  deriving DecidableEq, Repr

/-- The decoder before any event. -/
def Decoder.start : Decoder :=
  { rs := false, d := 0x0#4, en := false, lone := 0, high := none, items := [], waits := [], since := 0 }

/-- A byte from its two samples: COMMAND for RS = 0, DATA for RS = 1 (R110, R143). -/
def byteItem (rs : Bool) (hi lo : Nibble) : BusItem := if rs then .dat (hi ++ lo) else .cmd (hi ++ lo)

/-- One sample at an EN fall. A pair of nibbles under different RS levels is no transfer of the block; the first is then
read as a lone nibble (log 8). -/
def sample (k : Decoder) : Decoder :=
  let k' := { k with waits := k.waits ++ [k.since], since := 0 }
  match k.lone, k.high with
  | n + 1, _ => { k' with lone := n, items := k.items ++ [.nib k.d] }
  | 0, none => { k' with high := some (k.rs, k.d) }
  | 0, some (rs, hi) =>
    if rs = k.rs then { k' with high := none, items := k.items ++ [byteItem rs hi k.d] }
    else { k' with high := some (k.rs, k.d), items := k.items ++ [.nib hi] }

/-- One event. `Cfg` drives the lines low (R140) and starts an INIT, whose first four pulses are lone (R109). -/
def decodeEvent (k : Decoder) (e : Event) : Decoder :=
  match e with
  | .cfg => { k with rs := false, d := 0x0#4, en := false, lone := 4, high := none, items := k.items ++ [.cfg] }
  | .rs b => { k with rs := b }
  | .d n => { k with d := n }
  | .en true => { k with en := true }
  | .en false => if k.en then sample { k with en := false } else k
  | .wait t => { k with since := k.since + t }

/-- The decoder after a stretch of trace. -/
def decodeFrom (k : Decoder) (es : List Event) : Decoder := es.foldl decodeEvent k

/-- `bytes(trace)` (R110). -/
def bytes (es : List Event) : List BusItem := (decodeFrom Decoder.start es).items

/-- The sums of the waits between samples (R110): the first runs from the start of the trace. -/
def waitsBetweenSamples (es : List Event) : List Nat := (decodeFrom Decoder.start es).waits

/-- The trace ends between two transfers: EN is low, no lone nibble is due, and no byte is half sent. -/
def betweenBytes (es : List Event) : Bool :=
  let k := decodeFrom Decoder.start es
  !k.en && k.lone == 0 && k.high == none

/-- The last byte of the DisplayControl class among the COMMAND bytes (R39): bits [7:3] are 0b00001. -/
def lastDisplayControl (items : List BusItem) : Option Byte :=
  items.foldl (fun last x => match x with
    | .cmd v => if v &&& 0xF8#8 = 0x08#8 then some v else last
    | .cfg | .nib _ | .dat _ => last) none

/-- The last byte of the EntryMode class among the COMMAND bytes (R39): bits [7:2] are 0b000001. -/
def lastEntryMode (items : List BusItem) : Option Byte :=
  items.foldl (fun last x => match x with
    | .cmd v => if v &&& 0xFC#8 = 0x04#8 then some v else last
    | .cfg | .nib _ | .dat _ => last) none

end Sys2Proof.Machine
end

