-- ==== Sys2Proof/Machine/Lcd.lean ====
section
/-! DEFINITION. The LCD as an observer of the bus: the assumptions of 20_memory.md R80-R86 and the command classes of
30_encoding.md R108. The LCD is not an agent of the model (00_scope.md R19) and no step reads this file (R46). Every
value the spec does not give is `none`, meaning any value (log 9). -/

namespace Sys2Proof.Machine

/-- The HD44780U class of a COMMAND byte, by its highest set bit, with its fields (R108). -/
inductive CommandClass where
  | noInstruction
  | clearDisplay
  | returnHome
  | entryMode (id s : Bool)
  | displayControl (d c b : Bool)
  | shift (sc rl : Bool)
  | functionSet (dl n f : Bool)
  | cgramAddress (addr : BitVec 6)
  | ddramAddress (addr : BitVec 7)
  deriving DecidableEq, Repr

/-- R108. -/
def classify (v : Byte) : CommandClass :=
  if v.getLsbD 7 then .ddramAddress (v.extractLsb' 0 7)
  else if v.getLsbD 6 then .cgramAddress (v.extractLsb' 0 6)
  else if v.getLsbD 5 then .functionSet (v.getLsbD 4) (v.getLsbD 3) (v.getLsbD 2)
  else if v.getLsbD 4 then .shift (v.getLsbD 3) (v.getLsbD 2)
  else if v.getLsbD 3 then .displayControl (v.getLsbD 2) (v.getLsbD 1) (v.getLsbD 0)
  else if v.getLsbD 2 then .entryMode (v.getLsbD 1) (v.getLsbD 0)
  else if v.getLsbD 1 then .returnHome
  else if v.getLsbD 0 then .clearDisplay
  else .noInstruction

/-- The address counter with its space: one counter and one space flag for both (R84). The space can be known where the
address is not (`none`). -/
inductive Pointer where
  | ddram (addr : Option (BitVec 7))
  | cgram (addr : Option (BitVec 6))
  deriving DecidableEq, Repr

/-- The space alone: what is left of the pointer when the address moves to where the spec does not say. -/
def Pointer.space : Pointer → Pointer
  | .ddram _ => .ddram none
  | .cgram _ => .cgram none

/-- What an observer knows of the LCD (R46). The cells are those whose contents are known, last written first. -/
structure Lcd where
  synced : Nat
  fourBit : Bool
  ac : Option Pointer
  dc : Option Byte
  em : Option Byte
  function : Option Byte
  shift : Option Int
  ddram : List (Nat × Byte)
  cgram : List (Nat × Byte)
  deriving DecidableEq, Repr

/-- Nothing known: after a reset of the block or a loss of nibble phase (R312, R313, R324). -/
def Lcd.unknown : Lcd :=
  { synced := 0, fourBit := false, ac := none, dc := none, em := none, function := none, shift := none,
    ddram := [], cgram := [] }

/-- What the synchronisation nibbles of INIT leave known: the contents of both RAMs, because the steps of INIT other than
its CLEAR change registers only (R74). -/
def Lcd.ramOnly (l : Lcd) : Lcd := { Lcd.unknown with ddram := l.ddram, cgram := l.cgram }

/-- R72: the DDRAM address of a position of the 4 × 20 display. -/
def ddramAddress (row col : Nat) : Option Nat :=
  if 1 ≤ col ∧ col ≤ 20 then
    match row with
    | 1 => some (col - 1)
    | 2 => some (0x40 + (col - 1))
    | 3 => some (0x14 + (col - 1))
    | 4 => some (0x54 + (col - 1))
    | _ => none
  else none

/-- R73: the CGRAM address of pixel row i of the glyph in a slot. -/
def glyphAddress (slot i : Nat) : Nat := 8 * slot + i

/-- The known contents of a cell. -/
def cellAt (cells : List (Nat × Byte)) (addr : Nat) : Option Byte :=
  match cells with
  | [] => none
  | (a, v) :: rest => if a = addr then some v else cellAt rest addr

/-- AC moved by one (R86), within its space: only a set command, a clear or a return home changes the space (R82-R84).
In DDRAM the address moves along the two runs of R72, 0x00-0x27 and 0x40-0x67. Where it goes past the end of a run or of
CGRAM, or from an address outside the runs, is not in the spec (91_not_in_source.md 20-3): the address is then unknown. -/
def movePointer (forward : Bool) : Pointer → Pointer
  | .ddram addr => .ddram (addr.bind fun a =>
    if forward then (if a.toNat < 0x27 ∨ (0x40 ≤ a.toNat ∧ a.toNat < 0x67) then some (a + 1#7) else none)
    else if (0x00 < a.toNat ∧ a.toNat ≤ 0x27) ∨ (0x40 < a.toNat ∧ a.toNat ≤ 0x67) then some (a - 1#7)
    else none)
  | .cgram addr => .cgram (addr.bind fun a =>
    if forward then (if a.toNat < 0x3F then some (a + 1#6) else none)
    else if 0 < a.toNat then some (a - 1#6) else none)

/-- The LCD after a COMMAND byte in 4-bit mode (R82-R86, R108, R317). For a byte that a wrapped SETCUR or ADDCHAR sends,
93_implementation_defined.md I4 leaves the LCD's state any value. DESIGN CHOICE (log 9): the byte has the effect of its
class (R74, R108, R215), whichever request sent it, and all else that is known stays known. -/
def lcdCommand (v : Byte) (l : Lcd) : Lcd :=
  match classify v with
  | .noInstruction => l
  | .clearDisplay =>
    -- R82: all of the RAM is rewritten, with contents the spec does not name; R317: AC is then 0.
    { l with ac := some (.ddram (some 0#7)), em := some 0x06#8, shift := none, ddram := [], cgram := [] }
  | .returnHome => { l with ac := some (.ddram (some 0#7)), shift := some 0 }
  | .entryMode id s => { l with em := some (entryModeByte id s) }
  | .displayControl d c b => { l with dc := some (displayControlByte d c b) }
  | .shift sc rl =>
    if sc then { l with shift := l.shift.map fun n => if rl then n + 1 else n - 1 }
    else { l with ac := l.ac.map (movePointer rl) }
  | .functionSet dl _ _ => if dl then Lcd.unknown else { l with function := some v }
  | .cgramAddress a => { l with ac := some (.cgram (some a)) }
  | .ddramAddress a => { l with ac := some (.ddram (some a)) }

/-- The LCD after a DATA byte: written at AC, in the space AC points into, CGRAM keeping bits [4:0] (R84, R85); then AC
moves as the entry mode says, and a display shift on write leaves the shift unknown (R37). A write at an unknown address
leaves nothing known of its own space, and the other space as it was. -/
def lcdData (v : Byte) (l : Lcd) : Lcd :=
  let l' := { l with
    ac := l.ac.map fun p => match l.em with
      | some m => movePointer (m.getLsbD 1) p
      | none => p.space
    shift := match l.em with
      | some m => if m.getLsbD 0 then none else l.shift
      | none => none }
  match l.ac with
  | some (.ddram (some a)) => { l' with ddram := (a.toNat, v) :: l.ddram }
  | some (.ddram none) => { l' with ddram := [] }
  | some (.cgram (some a)) => { l' with cgram := (a.toNat, v &&& 0x1F#8) :: l.cgram }
  | some (.cgram none) => { l' with cgram := [] }
  | none => { l' with ddram := [], cgram := [] }

/-- One item of the bus. Three lone nibbles 0x3 and one 0x2 bring the LCD to 4-bit mode (R81) and leave its RAM as it was
(R74); what they do to the registers of an LCD in an unknown phase is not in the spec. A byte before that is lost with all
that is known. -/
def lcdStep (l : Lcd) : BusItem → Lcd
  | .cfg => { l with synced := 0 }
  | .nib n =>
    if n = 0x3#4 then { l.ramOnly with synced := l.synced + 1 }
    else if n = 0x2#4 ∧ l.synced = 3 then { l.ramOnly with fourBit := true }
    else Lcd.unknown
  | .cmd v => if l.fourBit then lcdCommand v l else Lcd.unknown
  | .dat v => if l.fourBit then lcdData v l else Lcd.unknown

/-- What an observer of the whole trace knows of the LCD. -/
def lcdAfter (es : List Event) : Lcd := (bytes es).foldl lcdStep Lcd.unknown

end Sys2Proof.Machine
end

