-- ==== Sys2Proof/Machine/RealTime.lean ====
section
/-! DEFINITION. What a wait promises of real time (40_bus_primitive.md R147): lower bounds only. No step reads it. -/

namespace Sys2Proof.Machine

/-- R147: a real time for each event that respects every wait. No upper bound holds. -/
def Admissible (time : Nat → ℝ) (es : List Event) : Prop :=
  ∀ i j, i < j → j < es.length → (waitBetween es i j : ℝ) ≤ time j - time i

end Sys2Proof.Machine
end

