-- ==== Sys2Proof/Machine/Expand.lean ====
section
/-! DEFINITION. The micro-program of every request as one pure function (40_bus_primitive.md R140), and the bus transfers a
request is made of. No step uses them: the meanings name their programs themselves, and the statements hold the two
against each other. -/

namespace Sys2Proof.Machine

/-- `expand(op, a, b, PAT, dc, em, cfg)` of R140; a reserved opcode has no micro-program. -/
def expand (cfg : Config) (r : Request) (dc em : Byte) : List MicroOp :=
  match r.op with
  | 0x01#8 => initProgram
  | 0x02#8 => clearProgram em
  | 0x03#8 => homeProgram
  | 0x04#8 => shlProgram
  | 0x05#8 => shrProgram
  | 0x06#8 => curincProgram
  | 0x07#8 => curdecProgram
  | 0x08#8 => setcurProgram cfg r.a r.b
  | 0x09#8 => wrcharProgram r.a
  | 0x0A#8 => addcharProgram r.a r.pat
  | op => if op.extractLsb' 4 4 = 0x1#4 then toggleProgram op dc em else []

/-- `issue(REQ, PAT)`, R101 in its own order: OVR, ILL, NR, ARG, else the upload. -/
def acceptance (cfg : Config) (r : Request) (s : State) : State :=
  if s.busy then raise .ovr s
  else if reservedOp r.op then raise .ill s
  else if r.op ≠ 0x01#8 ∧ s.fsm ≠ .ready then raise .nr s
  else if cfg.boundsCheck ∧ ¬ argsValid r.op r.a r.b then raise .arg s
  else upload r (expand cfg r s.dc s.em) s

/-- The bus transfers of a request with in-range operands, INIT apart, in order (R190-R195, R211, R214, R216, R230),
from the shadows at acceptance. -/
def transfersOf (dc em : Byte) : Instr → List Instr
  | .clear _ => [.clearDisplay, .entryMode (em.getLsbD 1) (em.getLsbD 0)]
  | .home _ => [.returnHome]
  | .shl _ => [.shiftLeft]
  | .shr _ => [.shiftRight]
  | .curinc _ => [.cursorInc]
  | .curdec _ => [.cursorDec]
  | .setcur row col _ =>
    match rowBase row with
    | some base => [.ddramSet ((wrapAdd col base).extractLsb' 0 7)]
    | none => []
  | .wrchar c _ _ => [.dataByte c]
  | .addchar slot pat _ =>
    .cgramSet ((cgramCmd slot).extractLsb' 0 6)
      :: ((List.range 8).map fun i => .dataByte (patternRow pat i)) ++ [.ddramSet 0#7]
  | .dispoff _ => [.displayControl false (dc.getLsbD 1) (dc.getLsbD 0)]
  | .dispon _ => [.displayControl true (dc.getLsbD 1) (dc.getLsbD 0)]
  | .uloff _ => [.displayControl (dc.getLsbD 2) false (dc.getLsbD 0)]
  | .ulon _ => [.displayControl (dc.getLsbD 2) true (dc.getLsbD 0)]
  | .blinkoff _ => [.displayControl (dc.getLsbD 2) (dc.getLsbD 1) false]
  | .blinkon _ => [.displayControl (dc.getLsbD 2) (dc.getLsbD 1) true]
  | .entdec _ => [.entryMode false (em.getLsbD 0)]
  | .entinc _ => [.entryMode true (em.getLsbD 0)]
  | .entshoff _ => [.entryMode (em.getLsbD 1) false]
  | .entshon _ => [.entryMode (em.getLsbD 1) true]
  | .init _ => []
  | .functionSet | .displayControl _ _ _ | .entryMode _ _ | .clearDisplay | .returnHome | .shiftLeft | .shiftRight
  | .cursorInc | .cursorDec | .cgramSet _ | .ddramSet _ | .dataByte _ | .syncNibble _ => []

/-- Execute a list of instructions in order, stopping at the first that does not answer a next state. -/
def execList : List Instr → State → Host.Outcome State Fault Refusal
  | [], s => .next s
  | i :: is, s =>
    match exec i s with
    | .next t => execList is t
    | .fault r => .fault r
    | .refused r => .refused r

end Sys2Proof.Machine
end

