-- ==== Sys2Proof/Safety.lean ====
section
/-! DEFINITION. What the statements say of a run: the invariant of reachable states (10_state.md R31-R38, R42;
40_bus_primitive.md R150; 41_init.md R171), correct use (60_exceptions.md R289), and the shadow relation (R39). -/

namespace Sys2Proof.Machine

/-- The micro-ops still to run. -/
def remaining (s : State) : List MicroOp := s.useq.drop s.upc.toNat

/-- R31 to R33: an idle block has no micro-program, and a busy one has a micro-op at `upc` of at most 140. -/
abbrev SequencerOk (s : State) : Prop :=
  if s.busy then s.upc.toNat < s.useq.length ∧ s.useq.length ≤ 140 else s.useq = [] ∧ s.upc = 0x00#8

/-- R36, R38: the hardwired field of DisplayControl. -/
abbrev DcOk (v : Byte) : Prop := v &&& 0xF8#8 = 0x08#8

/-- R37, R38: the hardwired field of EntryMode. -/
abbrev EmOk (v : Byte) : Prop := v &&& 0xFC#8 = 0x04#8

/-- A micro-op that loads a shadow keeps its hardwired field (R38). -/
def loadOk : MicroOp → Bool
  | .lddc v => decide (DcOk v)
  | .ldem v => decide (EmOk v)
  | .cfg | .rs _ | .d _ | .en _ | .wait _ | .fsm _ => true

/-- EN after a stretch of micro-program. -/
def enAfter (en : Bool) (ops : List MicroOp) : Bool :=
  ops.foldl (fun v op => match op with
    | .cfg => false
    | .en b => b
    | .rs _ | .d _ | .wait _ | .fsm _ | .lddc _ | .ldem _ => v) en

/-- OE after a stretch of micro-program. -/
def oeAfter (oe : Bool) (ops : List MicroOp) : Bool :=
  ops.foldl (fun v op => match op with
    | .cfg => true
    | .en _ | .rs _ | .d _ | .wait _ | .fsm _ | .lddc _ | .ldem _ => v) oe

/-- The initialization state after a stretch of micro-program. -/
def fsmAfter (fsm : Fsm) (ops : List MicroOp) : Fsm :=
  ops.foldl (fun v op => match op with
    | .fsm f => f
    | .cfg | .en _ | .rs _ | .d _ | .wait _ | .lddc _ | .ldem _ => v) fsm

/-- R150, R171, R283: when the micro-program under way completes, EN is 0, and the block is Uninitialized with its lines
undriven, or Ready and driving them. -/
abbrev BoundaryOk (s : State) : Prop :=
  enAfter s.en (remaining s) = false ∧
  (fsmAfter s.fsm (remaining s) = .uninitialized ∧ oeAfter s.oe (remaining s) = false ∨
    fsmAfter s.fsm (remaining s) = .ready ∧ oeAfter s.oe (remaining s) = true)

/-- The invariant of the machine. -/
abbrev Inv (s : State) : Prop :=
  SequencerOk s ∧ DcOk s.dc ∧ EmOk s.em ∧ (∀ op ∈ s.useq, loadOk op = true) ∧ BoundaryOk s

/-- A block ready for any request (R315): idle, Ready. -/
abbrev IdleReady (s : State) : Prop := s.busy = false ∧ s.fsm = .ready

/-- A request whose operands are in range (R103). -/
def inRange : Instr → Bool
  | .setcur row col _ => argsValid 0x08#8 row col
  | .addchar slot _ b => argsValid 0x0A#8 slot b
  | _ => true

/-- The instruction is a request of the request port. -/
def isRequest (i : Instr) : Bool :=
  match encode i with
  | .request _ _ => true
  | .command _ | .data _ | .nibble _ => false

/-- What the trace decoder reads of a request with in-range operands (R107, R170, R190-R195, R211, R214, R216, R230),
from the shadows at acceptance. -/
def itemsOf (dc em : Byte) : Instr → List BusItem
  | .init _ => [.cfg, .nib 0x3#4, .nib 0x3#4, .nib 0x3#4, .nib 0x2#4, .cmd 0x28#8, .cmd 0x0C#8, .cmd 0x06#8,
      .cmd 0x01#8, .cmd 0x06#8]
  | .clear _ => [.cmd 0x01#8, .cmd em]
  | .home _ => [.cmd 0x02#8]
  | .shl _ => [.cmd 0x18#8]
  | .shr _ => [.cmd 0x1C#8]
  | .curinc _ => [.cmd 0x14#8]
  | .curdec _ => [.cmd 0x10#8]
  | .setcur row col _ =>
    match rowBase row with
    | some base => [.cmd (wrapAdd col base)]
    | none => []
  | .wrchar c _ _ => [.dat c]
  | .addchar slot pat _ =>
    .cmd (cgramCmd slot) :: ((List.range 8).map fun i => .dat (patternRow pat i)) ++ [.cmd 0x80#8]
  | .dispoff _ => [.cmd (dc &&& ~~~0x04#8)]
  | .dispon _ => [.cmd (dc ||| 0x04#8)]
  | .uloff _ => [.cmd (dc &&& ~~~0x02#8)]
  | .ulon _ => [.cmd (dc ||| 0x02#8)]
  | .blinkoff _ => [.cmd (dc &&& ~~~0x01#8)]
  | .blinkon _ => [.cmd (dc ||| 0x01#8)]
  | .entdec _ => [.cmd (em &&& ~~~0x02#8)]
  | .entinc _ => [.cmd (em ||| 0x02#8)]
  | .entshoff _ => [.cmd (em &&& ~~~0x01#8)]
  | .entshon _ => [.cmd (em ||| 0x01#8)]
  | .functionSet | .displayControl _ _ _ | .entryMode _ _ | .clearDisplay | .returnHome | .shiftLeft | .shiftRight
  | .cursorInc | .cursorDec | .cgramSet _ | .ddramSet _ | .dataByte _ | .syncNibble _ => []

/-- The micro-ops of a request with in-range operands (R330). -/
def opCount : Instr → Nat
  | .init _ => 107
  | .clear _ => 29
  | .home _ => 15
  | .shl _ | .shr _ | .curinc _ | .curdec _ | .setcur _ _ _ | .wrchar _ _ _ => 14
  | .addchar _ _ _ => 140
  | .dispoff _ | .dispon _ | .uloff _ | .ulon _ | .blinkoff _ | .blinkon _ | .entdec _ | .entinc _ | .entshoff _
  | .entshon _ => 15
  | .functionSet | .displayControl _ _ _ | .entryMode _ _ | .clearDisplay | .returnHome | .shiftLeft | .shiftRight
  | .cursorInc | .cursorDec | .cgramSet _ | .ddramSet _ | .dataByte _ | .syncNibble _ => 0

/-- R289: no error is recorded. A claim about correct use takes this at its end. -/
abbrev NoError (s : State) : Prop := s.err = Errors.clear

/-- R39: the trace ends between transfers, and each shadow is the last byte of its class that was sent. -/
abbrev ShadowsMatch (s : State) : Prop :=
  betweenBytes s.trace = true ∧ lastDisplayControl (bytes s.trace) = some s.dc ∧
    lastEntryMode (bytes s.trace) = some s.em

/-- R39, said of any state: when the micro-program under way completes, and the block is then Ready, each shadow is the
last byte of its class that was sent. At a request boundary nothing remains, and this is R39 itself. -/
def ShadowsSettle (s : State) : Prop :=
  fsmAfter s.fsm (remaining s) = .ready → ShadowsMatch (applyAll Config.build (remaining s) s)

/-- R324: what a host that relies on R39 issues: requests, with in-range operands unless the block checks them. -/
def InputKeepsShadows (s : State) : Prop :=
  ∀ w rest i, s.inputs = .word w :: rest → decode w = some i →
    isRequest i = true ∧ (inRange i = true ∨ Config.build.boundsCheck = true)

/-- The state right after acceptance of a request with a micro-program that is not empty (R101). -/
def acceptedState (r : Request) (ops : List MicroOp) (s : State) : State :=
  { s with req := r, useq := ops, upc := 0x00#8, busy := true }

/-- The state when a request whose last transfer is the byte v in mode m has completed: the block is idle, RS holds the
mode, EN is 0, the data lines hold the low nibble (R150), and the events are on the trace. All else is as before. -/
def completedState (r : Request) (m : Bool) (v : Byte) (ops : List MicroOp) (s : State) : State :=
  { s with
    upc := 0x00#8, useq := [], busy := false, req := r, rs := m, en := false, d := loNibble v
    trace := s.trace ++ eventsOf Config.build ops, inputs := [] }

/-- A request issued to an idle block and run until the block is idle again: acceptance, and one step for each micro-op
(R101, R141). -/
def runRequest (i : Instr) (n : Nat) (s : State) : Host.Outcome State Fault Refusal :=
  Sys2Proof.core.run (n + 1) { s with inputs := [.word (encode i)] }

end Sys2Proof.Machine
end

