-- ==== Sys2Proof/Certificates/Slice0/Obligations.lean ====
section
/-! DEFINITION. The statements for the provers, from the numbered rules of spec/. Each holds for every configuration the
block can be built with: `Config.build` has no body. Where a statement speaks of `inputs`, the pending inputs are the
model's own field (log 3), and what a step does with them is the model's choice. -/

open Sys2Proof Sys2Proof.Machine

/-! ## Encoding -/

/-- R102, R104, R107: no bit of an encoding is dropped. -/
def Obligations.DecodeEncodeRoundTrip : Prop :=
  ∀ i : Instr, i.wellFormed = true → decode (encode i) = some i

/-- R102, R104, R107: each word has one meaning. -/
def Obligations.EncodeDecodeRoundTrip : Prop :=
  ∀ (w : InstrWord) (i : Instr), decode w = some i → encode i = w ∧ i.wellFormed = true

/-- R106, R282: exactly the reserved opcodes have no instruction, and an idle block drops one with ILL, whatever its
other fields and whatever the initialization state. -/
def Obligations.ReservedOpcodesAreIllegal : Prop :=
  ∀ (req : BitVec 24) (pat : Pattern) (s : State) (rest : List Input),
    (decode (.request req pat) = none ↔
      (req.toNat % 256 = 0x00 ∨ (0x0B ≤ req.toNat % 256 ∧ req.toNat % 256 ≤ 0x0F) ∨ 0x1A ≤ req.toNat % 256)) ∧
    (s.inputs = .word (.request req pat) :: rest → s.busy = false → decode (.request req pat) = none →
      step s = .next { s with inputs := rest, err := { s.err with ill := true } })

/-- R36, R37, R102, R104, R107: words written out from the encoding tables. -/
def Obligations.WordsDecodeAsWritten : Prop :=
  decode (.request 0x000001#24 0#64) = some (.init ⟨0x00#8, 0x00#8, 0#64⟩) ∧
  decode (.request 0xFFFF02#24 7#64) = some (.clear ⟨0xFF#8, 0xFF#8, 7#64⟩) ∧
  decode (.request 0x140308#24 0#64) = some (.setcur 0x03#8 0x14#8 0#64) ∧
  decode (.request 0x004109#24 0#64) = some (.wrchar 0x41#8 0x00#8 0#64) ∧
  decode (.request 0x00020A#24 0x0000040E1F1F0A00#64) = some (.addchar 0x02#8 0x0000040E1F1F0A00#64 0x00#8) ∧
  decode (.request 0x000019#24 0#64) = some (.entshon ⟨0x00#8, 0x00#8, 0#64⟩) ∧
  decode (.command 0b00001101#8) = some (.displayControl true false true) ∧
  decode (.command 0b00000110#8) = some (.entryMode true false) ∧
  decode (.command 0b01010000#8) = some (.cgramSet 0b010000#6) ∧
  decode (.command 0b11010100#8) = some (.ddramSet 0b1010100#7) ∧
  decode (.nibble 0b0011#4) = some (.syncNibble 0b0011#4) ∧ decode (.command 0x03#8) = none

/-- R101, R102: the fields a format leaves ignored reach the request latch and nothing else. -/
def Obligations.IgnoredFieldsReachOnlyTheLatch : Prop :=
  ∀ s : State,
    (∀ c ∈ [Instr.init, Instr.clear, Instr.home, Instr.shl, Instr.shr, Instr.curinc, Instr.curdec, Instr.dispoff,
        Instr.dispon, Instr.uloff, Instr.ulon, Instr.blinkoff, Instr.blinkon, Instr.entdec, Instr.entinc,
        Instr.entshoff, Instr.entshon],
      ∀ u u' : Unread, ∃ t r, exec (c u) s = .next t ∧ exec (c u') s = .next { t with req := r }) ∧
    (∀ (x y b b' : Byte) (pat pat' : Pattern),
      (∃ t r, exec (.setcur x y pat) s = .next t ∧ exec (.setcur x y pat') s = .next { t with req := r }) ∧
      (∃ t r, exec (.wrchar x b pat) s = .next t ∧ exec (.wrchar x b' pat') s = .next { t with req := r }) ∧
      (∃ t r, exec (.addchar x pat b) s = .next t ∧ exec (.addchar x pat b') s = .next { t with req := r }))

/-! ## Acceptance and the step -/

/-- R101: a request word in any state is taken in one step, by the checks in their order, and the micro-program is that
of `expand`; only SETCUR with a row that has no base has an empty one. -/
def Obligations.AcceptanceFollowsTheFourChecks : Prop :=
  (∀ (s : State) (req : BitVec 24) (pat : Pattern) (rest : List Input),
    s.inputs = .word (.request req pat) :: rest →
    step s = .next (acceptance Config.build (splitRequest req pat) { s with inputs := rest })) ∧
  (∀ (cfg : Config) (r : Request) (dc em : Byte), reservedOp r.op = false →
    (expand cfg r dc em = [] ↔ r.op = 0x08#8 ∧ ¬ (1 ≤ r.a.toNat ∧ r.a.toNat ≤ 4) ∧ cfg.rowBaseInvalid r.a = none))

/-- R287, R288: a request is dropped with exactly one error bit set and no other effect, or it is accepted whole with no
error bit touched. -/
def Obligations.RequestIsDroppedOrWhole : Prop :=
  ∀ (i : Instr) (s : State), isRequest i = true →
    (∃ k, exec i s = .next { s with err := setError k s.err }) ∨
    (∃ ops, exec i s = .next { s with
      req := (match encode i with
        | .request req pat => splitRequest req pat
        | _ => s.req),
      useq := ops, upc := 0x00#8, busy := !ops.isEmpty })

/-- R100, R101 and log 3: a step with a word at the head of the inputs runs the instruction it decodes to: a request at
once, a bus transfer when the block is idle; while it is busy the transfer waits and the sequencer steps. -/
def Obligations.StepRunsTheDecodedInstruction : Prop :=
  ∀ (s : State) (w : InstrWord) (i : Instr) (rest : List Input),
    s.inputs = .word w :: rest → decode w = some i →
    ((isRequest i = true ∨ s.busy = false) → step s = exec i { s with inputs := rest }) ∧
    (isRequest i = false → s.busy = true → step s = sequencerStep Config.build s)

/-- R141: the step of a block with nothing pending, or with a turn of the sequencer pending: one micro-op, and completion
after the last. That an idle block then keeps its state is the model's stutter step (log 3). -/
def Obligations.SequencerRunsOneMicroOp : Prop :=
  ∀ s₀ s : State, (s₀.inputs = [] ∧ s = s₀) ∨ (∃ rest, s₀.inputs = .sequencer :: rest ∧ s = { s₀ with inputs := rest }) →
    (s.busy = false → step s₀ = .next s) ∧
    (∀ op, s.busy = true → s.useq[s.upc.toNat]? = some op →
      step s₀ = .next (
        if (s.upc + 1#8).toNat = s.useq.length then
          { applyOp Config.build op s with busy := false, upc := 0x00#8, useq := [] }
        else { applyOp Config.build op s with upc := s.upc + 1#8 }))

/-- R47, R315, R320: reading the status word changes nothing; a poll ends when BUSY is 0, and the sequencer runs until
then. A poll as an input is the model's choice (log 3). -/
def Obligations.StatusReadsChangeNothing : Prop :=
  ∀ (s : State) (rest : List Input),
    (s.inputs = .readStatus :: rest → step s = .next { s with inputs := rest }) ∧
    (s.inputs = .poll :: rest → s.busy = false → step s = .next { s with inputs := rest }) ∧
    (s.inputs = .poll :: rest → s.busy = true → step s = sequencerStep Config.build s)

/-! ## Requests: acceptance and completion -/

/-- R170, R172: INIT is accepted by any idle block, and its micro-program is the rule's. -/
def Obligations.InitAccepted : Prop :=
  ∀ (u : Unread) (s : State), s.busy = false →
    exec (.init u) s = .next (acceptedState { op := 0x01#8, a := u.a, b := u.b, pat := u.pat }
      ([.fsm .uninitialized, .cfg, .wait .powerOn, .fsm .resetSequencing]
        ++ nibw 0x3#4 ++ [.wait .init1] ++ nibw 0x3#4 ++ [.wait .init2] ++ nibw 0x3#4 ++ [.wait .init3]
        ++ nibw 0x2#4 ++ [.wait .init3] ++ [.fsm .functionSet] ++ wcmd 0x28#8
        ++ [.fsm .ready, .lddc 0x0C#8, .ldem 0x06#8] ++ wcmd 0x0C#8 ++ wcmd 0x06#8 ++ wcmd 0x01#8 ++ wcmd 0x06#8) s)

/-- R170, R171, R173: after 107 micro-ops INIT leaves the block Ready, driving its lines, with the default shadows
whatever they were. -/
def Obligations.InitRunsToReady : Prop :=
  ∀ (u : Unread) (s : State), s.busy = false →
    runRequest (.init u) 107 s = .next { s with
      upc := 0x00#8, useq := [], busy := false, req := { op := 0x01#8, a := u.a, b := u.b, pat := u.pat }
      fsm := .ready, dc := 0x0C#8, em := 0x06#8, rs := false, en := false, d := 0x6#4, oe := true
      trace := s.trace ++ eventsOf Config.build initProgram, inputs := [] }

/-- R190: CLEAR sends 0x01 and then the EntryMode shadow, 29 micro-ops, and writes no shadow. `EmOk` is the hardwired
field of R38, kept by StepKeepsInvariant. -/
def Obligations.ClearRuns : Prop :=
  ∀ (u : Unread) (s : State), IdleReady s → EmOk s.em →
    exec (.clear u) s = .next (acceptedState { op := 0x02#8, a := u.a, b := u.b, pat := u.pat }
      (wcmd 0x01#8 ++ wcmd s.em) s) ∧
    runRequest (.clear u) 29 s = .next (completedState { op := 0x02#8, a := u.a, b := u.b, pat := u.pat } false s.em
      (wcmd 0x01#8 ++ wcmd s.em) s)

/-- R191-R195: HOME, SHL, SHR, CURINC and CURDEC send one fixed byte, in 15 or 14 micro-ops, and touch no shadow. -/
def Obligations.FixedCommandsRun : Prop :=
  ∀ (c : Unread → Instr) (op v : Byte) (n : Nat),
    (c, op, v, n) ∈ [(Instr.home, 0x03#8, 0x02#8, 15), (Instr.shl, 0x04#8, 0x18#8, 14), (Instr.shr, 0x05#8, 0x1C#8, 14),
      (Instr.curinc, 0x06#8, 0x14#8, 14), (Instr.curdec, 0x07#8, 0x10#8, 14)] →
    ∀ (u : Unread) (s : State), IdleReady s →
      exec (c u) s = .next (acceptedState { op := op, a := u.a, b := u.b, pat := u.pat } (wcmd v) s) ∧
      runRequest (c u) n s =
        .next (completedState { op := op, a := u.a, b := u.b, pat := u.pat } false v (wcmd v) s)

/-- R210, R211: SETCUR with row 1 to 4 and column 1 to 20 sends `column + base(row)`. -/
def Obligations.SetcurRuns : Prop :=
  ∀ (row col base : Byte) (pat : Pattern) (s : State),
    (row, base) ∈ [(0x01#8, 0x7F#8), (0x02#8, 0xBF#8), (0x03#8, 0x93#8), (0x04#8, 0xD3#8)] →
    1 ≤ col.toNat → col.toNat ≤ 20 → IdleReady s →
    exec (.setcur row col pat) s =
      .next (acceptedState { op := 0x08#8, a := row, b := col, pat := pat } (wcmd (col + base)) s) ∧
    runRequest (.setcur row col pat) 14 s =
      .next (completedState { op := 0x08#8, a := row, b := col, pat := pat } false (col + base) (wcmd (col + base)) s)

/-- R211, R212, R215, R285: SETCUR with an operand out of range, under any configuration: refused with ARG under bounds
checks; else the wrapped byte of rows 1 to 4 is sent with no check, and an invalid row sends its open base's byte, or
nothing and completes at once. -/
def Obligations.SetcurOutOfRange : Prop :=
  (∀ (row col : Byte) (pat : Pattern) (s : State),
    exec (.setcur row col pat) s = .next (setcurUnder Config.build row col pat s)) ∧
  (∀ row : Byte, Config.sim.rowBaseInvalid row = none) ∧
  ∀ (cfg : Config) (row col : Byte) (pat : Pattern) (s : State), IdleReady s →
    ¬ (1 ≤ row.toNat ∧ row.toNat ≤ 4 ∧ 1 ≤ col.toNat ∧ col.toNat ≤ 20) →
    (cfg.boundsCheck = true →
      setcurUnder cfg row col pat s = { s with err := { s.err with arg := true } }) ∧
    (cfg.boundsCheck = false → ∀ base : Byte,
      (row, base) ∈ [(0x01#8, 0x7F#8), (0x02#8, 0xBF#8), (0x03#8, 0x93#8), (0x04#8, 0xD3#8)] →
      setcurUnder cfg row col pat s =
        acceptedState { op := 0x08#8, a := row, b := col, pat := pat } (wcmd (col + base)) s) ∧
    (cfg.boundsCheck = false → ¬ (1 ≤ row.toNat ∧ row.toNat ≤ 4) → ∀ base : Byte, cfg.rowBaseInvalid row = some base →
      setcurUnder cfg row col pat s =
        acceptedState { op := 0x08#8, a := row, b := col, pat := pat } (wcmd (col + base)) s) ∧
    (cfg.boundsCheck = false → ¬ (1 ≤ row.toNat ∧ row.toNat ≤ 4) → cfg.rowBaseInvalid row = none →
      setcurUnder cfg row col pat s =
        { s with req := { op := 0x08#8, a := row, b := col, pat := pat }, useq := [], upc := 0x00#8 })

/-- R213, R214: ADDCHAR with slot 0 to 7 sends the CGRAM-set byte, the eight rows of PAT unmasked, row 0 first, and
0x80, in 140 micro-ops. -/
def Obligations.AddcharRuns : Prop :=
  ∀ (slot b : Byte) (pat : Pattern) (s : State), slot.toNat ≤ 7 → IdleReady s →
    let ops := wcmd (0x40#8 + 8#8 * slot)
      ++ wdata (pat.extractLsb' 0 8) ++ wdata (pat.extractLsb' 8 8) ++ wdata (pat.extractLsb' 16 8)
      ++ wdata (pat.extractLsb' 24 8) ++ wdata (pat.extractLsb' 32 8) ++ wdata (pat.extractLsb' 40 8)
      ++ wdata (pat.extractLsb' 48 8) ++ wdata (pat.extractLsb' 56 8) ++ wcmd 0x80#8
    exec (.addchar slot pat b) s = .next (acceptedState { op := 0x0A#8, a := slot, b := b, pat := pat } ops s) ∧
    runRequest (.addchar slot pat b) 140 s =
      .next (completedState { op := 0x0A#8, a := slot, b := b, pat := pat } false 0x80#8 ops s)

/-- R214, R215, R285: ADDCHAR with a slot above 7, under any configuration: ARG under bounds checks, else the wrapped
CGRAM-set byte and the rest as for slots 0 to 7, still 140 micro-ops. -/
def Obligations.AddcharOutOfRange : Prop :=
  (∀ (slot b : Byte) (pat : Pattern) (s : State),
    exec (.addchar slot pat b) s = .next (addcharUnder Config.build slot pat b s)) ∧
  ∀ (cfg : Config) (slot b : Byte) (pat : Pattern) (s : State), IdleReady s → 7 < slot.toNat →
    (cfg.boundsCheck = true → addcharUnder cfg slot pat b s = { s with err := { s.err with arg := true } }) ∧
    (cfg.boundsCheck = false →
      let ops := wcmd (0x40#8 + 8#8 * slot)
        ++ wdata (pat.extractLsb' 0 8) ++ wdata (pat.extractLsb' 8 8) ++ wdata (pat.extractLsb' 16 8)
        ++ wdata (pat.extractLsb' 24 8) ++ wdata (pat.extractLsb' 32 8) ++ wdata (pat.extractLsb' 40 8)
        ++ wdata (pat.extractLsb' 48 8) ++ wdata (pat.extractLsb' 56 8) ++ wcmd 0x80#8
      addcharUnder cfg slot pat b s = acceptedState { op := 0x0A#8, a := slot, b := b, pat := pat } ops s ∧
        ops.length = 140)

/-- R216: WRCHAR sends any byte as DATA, in 14 micro-ops; RS ends at 1. -/
def Obligations.WrcharRuns : Prop :=
  ∀ (c b : Byte) (pat : Pattern) (s : State), IdleReady s →
    exec (.wrchar c b pat) s = .next (acceptedState { op := 0x09#8, a := c, b := b, pat := pat } (wdata c) s) ∧
    runRequest (.wrchar c b pat) 14 s =
      .next (completedState { op := 0x09#8, a := c, b := b, pat := pat } true c (wdata c) s)

/-- R231-R236: the six DisplayControl toggles write their bit of the shadow, send the shadow whole, and change nothing
else. `DcOk` is the hardwired field of R38. -/
def Obligations.DisplayTogglesRun : Prop :=
  ∀ (c : Unread → Instr) (op keep set : Byte),
    (c, op, keep, set) ∈ [(Instr.dispoff, 0x10#8, 0xFB#8, 0x00#8), (Instr.dispon, 0x11#8, 0xFF#8, 0x04#8),
      (Instr.uloff, 0x12#8, 0xFD#8, 0x00#8), (Instr.ulon, 0x13#8, 0xFF#8, 0x02#8),
      (Instr.blinkoff, 0x14#8, 0xFE#8, 0x00#8), (Instr.blinkon, 0x15#8, 0xFF#8, 0x01#8)] →
    ∀ (u : Unread) (s : State), IdleReady s → DcOk s.dc →
      let new := s.dc &&& keep ||| set
      exec (c u) s =
        .next (acceptedState { op := op, a := u.a, b := u.b, pat := u.pat } (.lddc new :: wcmd new) s) ∧
      runRequest (c u) 15 s = .next { completedState { op := op, a := u.a, b := u.b, pat := u.pat } false new
        (wcmd new) s with dc := new } ∧ DcOk new

/-- R237-R240: the four EntryMode toggles. `EmOk` is the hardwired field of R38. -/
def Obligations.EntryTogglesRun : Prop :=
  ∀ (c : Unread → Instr) (op keep set : Byte),
    (c, op, keep, set) ∈ [(Instr.entdec, 0x16#8, 0xFD#8, 0x00#8), (Instr.entinc, 0x17#8, 0xFF#8, 0x02#8),
      (Instr.entshoff, 0x18#8, 0xFE#8, 0x00#8), (Instr.entshon, 0x19#8, 0xFF#8, 0x01#8)] →
    ∀ (u : Unread) (s : State), IdleReady s → EmOk s.em →
      let new := s.em &&& keep ||| set
      exec (c u) s =
        .next (acceptedState { op := op, a := u.a, b := u.b, pat := u.pat } (.ldem new :: wcmd new) s) ∧
      runRequest (c u) 15 s = .next { completedState { op := op, a := u.a, b := u.b, pat := u.pat } false new
        (wcmd new) s with em := new } ∧ EmOk new

/-- R105, R230: every opcode 0x10 to 0x19 is a toggle: its selector names the register and bit, its low bit the value;
the shadow is loaded first, then sent, whatever the bit was, and the hardwired fields stay. -/
def Obligations.ToggleOpcodeStructure : Prop :=
  ∀ (r : Request) (s : State) (sel : Nat), 0x10 ≤ r.op.toNat → r.op.toNat ≤ 0x19 → IdleReady s →
    sel = (r.op.toNat - 0x10) / 2 →
    ∃ i, decodeRequest r = some i ∧
      if sel < 3 then
        let new := if r.op.toNat % 2 = 1 then s.dc ||| 1#8 <<< (2 - sel) else s.dc &&& ~~~(1#8 <<< (2 - sel))
        exec i s = .next (acceptedState r (.lddc new :: wcmd new) s) ∧ new &&& 0xF8#8 = s.dc &&& 0xF8#8
      else
        let new := if r.op.toNat % 2 = 1 then s.em ||| 1#8 <<< (4 - sel) else s.em &&& ~~~(1#8 <<< (4 - sel))
        exec i s = .next (acceptedState r (.ldem new :: wcmd new) s) ∧ new &&& 0xFC#8 = s.em &&& 0xFC#8

/-- R241(b), (c): toggles of different bits commute on a shadow; clearing and setting a bit gives the register back
exactly when the bit was set. -/
def Obligations.ToggleLaws : Prop :=
  (∀ (reg : Byte) (i j : Nat) (v w : Bool), i < 8 → j < 8 → i ≠ j →
    setBit (setBit reg i v) j w = setBit (setBit reg j w) i v) ∧
  (∀ (reg : Byte) (i : Nat) (v : Bool), i < 8 →
    (setBit (setBit reg i (!v)) i v = reg ↔ reg.getLsbD i = v)) ∧
  (∀ (u u' : Unread) (s t t' : State), IdleReady s → DcOk s.dc → runRequest (.dispoff u) 15 s = .next t →
    runRequest (.dispon u') 15 t = .next t' → (t'.dc = s.dc ↔ s.dc.getLsbD 2 = true))

/-! ## Bus rows -/

/-- R107, R143, R144: every COMMAND row drives RS to 0, leaves EN at 0 and the low nibble on the data lines, appends the
events of WCMD, and changes nothing else, in every state. That a row runs by itself, at once, is the model's choice
(log 4). -/
def Obligations.CommandRowsDriveTheBus : Prop :=
  ∀ (i : Instr) (v : Byte) (s : State),
    ((i, v) ∈ [(Instr.functionSet, 0x28#8), (Instr.clearDisplay, 0x01#8), (Instr.returnHome, 0x02#8),
        (Instr.shiftLeft, 0x18#8), (Instr.shiftRight, 0x1C#8), (Instr.cursorInc, 0x14#8), (Instr.cursorDec, 0x10#8)] ∨
      (∃ d c b, i = .displayControl d c b ∧
        v = 0x08#8 ||| (if d then 0x04#8 else 0#8) ||| (if c then 0x02#8 else 0#8) ||| (if b then 0x01#8 else 0#8)) ∨
      (∃ id sh, i = .entryMode id sh ∧ v = 0x04#8 ||| (if id then 0x02#8 else 0#8) ||| (if sh then 0x01#8 else 0#8)) ∨
      (∃ addr : BitVec 6, i = .cgramSet addr ∧ v = 0x40#8 + addr.zeroExtend 8) ∨
      (∃ addr : BitVec 7, i = .ddramSet addr ∧ v = 0x80#8 + addr.zeroExtend 8)) →
    exec i s = .next { s with
      rs := false, en := false, d := v.extractLsb' 0 4, trace := s.trace ++ eventsOf Config.build (wcmd v) }

/-- R107, R109, R142, R145: a DATA byte and a lone nibble. That a row runs by itself, at once, is the model's choice
(log 4). -/
def Obligations.DataAndNibbleRowsDriveTheBus : Prop :=
  (∀ (v : Byte) (s : State), exec (.dataByte v) s = .next { s with
    rs := true, en := false, d := v.extractLsb' 0 4
    trace := s.trace ++ [.rs true, .d (v.extractLsb' 4 4), .wait 1, .en true, .wait (delayUs Config.build .enable),
      .en false, .wait 1, .d (v.extractLsb' 0 4), .wait 1, .en true, .wait (delayUs Config.build .enable), .en false,
      .wait 1, .wait (delayUs Config.build .short)] }) ∧
  (∀ (n : Nibble) (s : State), exec (.syncNibble n) s = .next { s with
    en := false, d := n
    trace := s.trace ++ [.d n, .wait 1, .en true, .wait (delayUs Config.build .enable), .en false, .wait 1] })

/-! ## Errors -/

/-- R284: a request issued while busy is dropped with OVR, and the request in progress is not disturbed; a reserved
opcode too. -/
def Obligations.BusyRequestIsDroppedWithOvr : Prop :=
  ∀ (s : State) (req : BitVec 24) (pat : Pattern) (rest : List Input),
    s.inputs = .word (.request req pat) :: rest → s.busy = true →
    step s = .next { s with inputs := rest, err := { s.err with ovr := true } }

/-- R283: a request other than INIT while the block is idle and not Ready is dropped with NR; in a state that meets the
invariant the block is then Uninitialized with its lines undriven. -/
def Obligations.NotReadyRequestIsDroppedWithNr : Prop :=
  ∀ (i : Instr) (s : State), isRequest i = true → (∀ u, i ≠ .init u) → s.busy = false → s.fsm ≠ .ready →
    exec i s = .next { s with err := { s.err with nr := true } } ∧
    (Inv s → s.fsm = .uninitialized ∧ s.oe = false)

/-- R43, R289: no step but RST clears an error bit. -/
def Obligations.ErrorsAreSticky : Prop :=
  ∀ (s t : State) (k : ErrorKind), step s = .next t → s.inputs.head? ≠ some .reset →
    hasError k s.err = true → hasError k t.err = true

/-! ## Invariants and whole-machine rules -/

/-- R31-R33, R38, R150, R171: every step keeps the invariant. -/
def Obligations.StepKeepsInvariant : Prop :=
  ∀ s t : State, Inv s → step s = .next t → Inv t

/-- R48: the invariant holds at reset. -/
def Obligations.InvariantHoldsAtReset : Prop := Inv State.reset

/-- R141, R280: no state that meets the invariant faults, and only a bus word of no row is refused. The fault and the refusal
are the model's (log 7, log 4). -/
def Obligations.InvariantRulesOutFaults : Prop :=
  ∀ s : State, Inv s →
    (∀ f, step s ≠ .fault f) ∧
    (∀ r, step s = .refused r → ∃ w rest, s.inputs = .word w :: rest ∧ decode w = none ∧ ∀ q p, w ≠ .request q p)

/-- R141, R149: a busy block left alone completes its micro-program, one step for each micro-op that remains, with
their effects in order. -/
def Obligations.BusyBlockRunsToCompletion : Prop :=
  ∀ s : State, SequencerOk s → s.busy = true → s.inputs = [] →
    Sys2Proof.core.run (s.useq.length - s.upc.toNat) s =
      .next { applyAll Config.build (remaining s) s with busy := false, upc := 0x00#8, useq := [] }

/-- R107, R140, R190-R216, R230-R240: what a request with in-range operands does to the lines and the trace, one
micro-op a step, is what its bus rows do, one transfer after another. The rows as instructions are the model's choice
(log 4). -/
def Obligations.RequestIsItsTransfers : Prop :=
  ∀ (i : Instr) (s : State), isRequest i = true → (∀ u, i ≠ .init u) → inRange i = true → IdleReady s →
    DcOk s.dc → EmOk s.em →
    ∃ t u, runRequest i (opCount i) s = .next t ∧ execList (transfersOf s.dc s.em i) s = .next u ∧
      t = { u with upc := 0x00#8, useq := [], req := t.req, dc := t.dc, em := t.em, inputs := [] }

/-- R107, R109, R110: the bytes on the bus. A request with in-range operands, run from between two transfers, adds its
own items to `bytes(trace)` and ends between two transfers. -/
def Obligations.RequestBytesOnTheBus : Prop :=
  ∀ (i : Instr) (s : State), isRequest i = true → inRange i = true → s.busy = false →
    (s.fsm = .ready ∨ ∃ u, i = .init u) → DcOk s.dc → EmOk s.em → betweenBytes s.trace = true →
    ∃ t, runRequest i (opCount i) s = .next t ∧ bytes t.trace = bytes s.trace ++ itemsOf s.dc s.em i ∧
      betweenBytes t.trace = true

/-- R39, R170: INIT, run from any idle state and any trace, leaves each shadow equal to the last byte of its class. -/
def Obligations.InitEstablishesShadows : Prop :=
  ∀ (u : Unread) (s : State), s.busy = false →
    ∃ t, runRequest (.init u) 107 s = .next t ∧ ShadowsMatch t

/-- R39, R230: a request with in-range operands, run from a request boundary at which each shadow is the last byte of its
class that was sent, ends at such a boundary, ready for the next. -/
def Obligations.InRangeRequestKeepsShadows : Prop :=
  ∀ (i : Instr) (s : State), isRequest i = true → inRange i = true → IdleReady s → DcOk s.dc → EmOk s.em →
    ShadowsMatch s →
    ∃ t, runRequest i (opCount i) s = .next t ∧ IdleReady t ∧ ShadowsMatch t

/-- R35, R171: only RST and INIT's FSM micro-ops change the initialization state, and no other request has one. -/
def Obligations.OnlyInitAndResetChangeFsm : Prop :=
  (∀ s t : State, step s = .next t → t.fsm ≠ s.fsm →
    s.inputs.head? = some .reset ∨ s.busy = true ∧ ∃ f, s.useq[s.upc.toNat]? = some (.fsm f) ∧ t.fsm = f) ∧
  (∀ (cfg : Config) (r : Request) (dc em : Byte) (f : Fsm), r.op ≠ 0x01#8 → .fsm f ∉ expand cfg r dc em)

/-- R42: only RST releases the lines. -/
def Obligations.OnlyResetReleasesTheLines : Prop :=
  ∀ s t : State, step s = .next t → s.oe = true → t.oe = false → s.inputs.head? = some .reset

/-- R36-R38: a shadow changes only by RST or by a load that INIT or a toggle's micro-program holds. -/
def Obligations.OnlyLoadsAndResetChangeShadows : Prop :=
  (∀ s t : State, step s = .next t → s.inputs.head? ≠ some .reset →
    (t.dc ≠ s.dc → s.busy = true ∧ s.useq[s.upc.toNat]? = some (.lddc t.dc)) ∧
    (t.em ≠ s.em → s.busy = true ∧ s.useq[s.upc.toNat]? = some (.ldem t.em))) ∧
  (∀ (cfg : Config) (r : Request) (dc em v : Byte),
    (.lddc v ∈ expand cfg r dc em → r.op = 0x01#8 ∨ (0x10 ≤ r.op.toNat ∧ r.op.toNat ≤ 0x15)) ∧
    (.ldem v ∈ expand cfg r dc em → r.op = 0x01#8 ∨ (0x16 ≤ r.op.toNat ∧ r.op.toNat ≤ 0x19)))

/-- R45: but for RST a step only appends to the trace, and a step that runs no bus row appends at most one event.
A bus row is one step by the model's choice (log 4). -/
def Obligations.TraceOnlyGrows : Prop :=
  ∀ s t : State, step s = .next t → s.inputs.head? ≠ some .reset →
    ∃ es, t.trace = s.trace ++ es ∧
      (es.length ≤ 1 ∨ ∃ w i, s.inputs.head? = some (.word w) ∧ decode w = some i ∧ isRequest i = false)

/-- R34, 93_implementation_defined.md I16: no step reads the request latch. -/
def Obligations.LatchIsNeverRead : Prop :=
  ∀ (s t : State) (r : Request), step s = .next t →
    step { s with req := r } = .next t ∨ step { s with req := r } = .next { t with req := r }

/-- R48, R310: RST sets every field to its reset value, whatever the block was doing. The inputs stay (log 3,
the model's choice). -/
def Obligations.ResetSetsEveryField : Prop :=
  ∀ (s : State) (rest : List Input), s.inputs = .reset :: rest →
    step s = .next
      { upc := 0x00#8, useq := [], busy := false, req := { op := 0x00#8, a := 0x00#8, b := 0x00#8, pat := 0#64 }
        fsm := .uninitialized, dc := 0x0C#8, em := 0x06#8, rs := false, en := false, d := 0x0#4, oe := false
        err := { ill := false, nr := false, ovr := false, arg := false }, trace := [], inputs := rest }

/-- R120: every field of the status word, and its value at reset. -/
def Obligations.StatusWordFields : Prop :=
  statusWord State.reset = 0x00000C06#32 ∧
  ∀ s : State,
    (statusWord s).extractLsb' 0 8 = s.em ∧ (statusWord s).extractLsb' 8 8 = s.dc ∧
    ((statusWord s).extractLsb' 16 2).toNat =
      (match s.fsm with | .uninitialized => 0 | .resetSequencing => 1 | .functionSet => 2 | .ready => 3) ∧
    (statusWord s).getLsbD 18 = s.busy ∧ (statusWord s).getLsbD 19 = s.oe ∧
    (statusWord s).getLsbD 20 = s.err.ill ∧ (statusWord s).getLsbD 21 = s.err.nr ∧
    (statusWord s).getLsbD 22 = s.err.ovr ∧ (statusWord s).getLsbD 23 = s.err.arg ∧
    (statusWord s).getLsbD 24 = s.rs ∧ (statusWord s).getLsbD 25 = s.en ∧
    (statusWord s).extractLsb' 26 4 = s.d ∧ (statusWord s).extractLsb' 30 2 = 0#2

/-! ## Address translators -/

/-- R210: the DDRAM translator. -/
def Obligations.DdramTranslator : Prop :=
  ∀ (cfg : Config) (col : Byte),
    ∀ p ∈ [(0x01#8, 0x80 - 1), (0x02#8, 0xC0 - 1), (0x03#8, 0x80 + 19), (0x04#8, 0xC0 + 19)],
      ∃ base, cursorBase cfg p.1 = some base ∧ (wrapAdd col base).toNat = (col.toNat + p.2) % 256

/-- R213: the CGRAM translator. -/
def Obligations.CgramTranslator : Prop :=
  ∀ slot : Byte, (cgramCmd slot).toNat = (0x40 + 8 * slot.toNat) % 256 ∧ (cgramCmd slot).toNat % 8 = 0 ∧
    longCommand (cgramCmd slot) = false ∧ cgramCmd (slot + 32#8) = cgramCmd slot ∧
    (slot.toNat ≤ 7 → (cgramCmd slot).toNat = 0x40 + 8 * slot.toNat) ∧
    (8 ≤ slot.toNat → slot.toNat ≤ 23 → 0x80 ≤ (cgramCmd slot).toNat) ∧
    (24 ≤ slot.toNat → slot.toNat ≤ 31 → (cgramCmd slot).toNat = 8 * (slot.toNat - 24))

/-- R72: SETCUR's byte is 0x80 plus the DDRAM address of the position, and no two positions share one. -/
def Obligations.DisplayPositions : Prop :=
  (∀ (row col base : Byte), rowValid row = true → colValid col = true → rowBase row = some base →
    ∃ addr, ddramAddress row.toNat col.toNat = some addr ∧ (wrapAdd col base).toNat = 0x80 + addr ∧ addr ≤ 0x67) ∧
  (∀ r c r' c' addr : Nat, ddramAddress r c = some addr → ddramAddress r' c' = some addr → r = r' ∧ c = c') ∧
  (∀ c : Nat, ddramAddress 1 20 = some 0x13 ∧ ddramAddress 3 1 = some 0x14 ∧ ddramAddress 2 20 = some 0x53 ∧
    ddramAddress 4 1 = some 0x54 ∧ ddramAddress 5 c = none ∧ ddramAddress 0 c = none)

/-! ## Timing -/

/-- R149, R174, R330: the micro-ops and the least duration of every request, under every configuration. `B` is one byte
with its short delay. -/
def Obligations.MinimumDurations : Prop :=
  ∀ cfg : Config,
    let B := 2 * (delayUs cfg .setup + delayUs cfg .enable + delayUs cfg .hold) + delayUs cfg .short
    (initProgram.length = 107 ∧ waitSum (eventsOf cfg initProgram) =
      delayUs cfg .powerOn + 4 * (delayUs cfg .setup + delayUs cfg .enable + delayUs cfg .hold) + delayUs cfg .init1
        + delayUs cfg .init2 + 2 * delayUs cfg .init3 + 5 * B + delayUs cfg .long) ∧
    (∀ em, EmOk em → (clearProgram em).length = 29 ∧
      waitSum (eventsOf cfg (clearProgram em)) = 2 * B + delayUs cfg .long) ∧
    (homeProgram.length = 15 ∧ waitSum (eventsOf cfg homeProgram) = B + delayUs cfg .long) ∧
    (∀ ops ∈ [shlProgram, shrProgram, curincProgram, curdecProgram],
      ops.length = 14 ∧ waitSum (eventsOf cfg ops) = B) ∧
    (∀ row col base, cursorBase cfg row = some base →
      if 1 ≤ (wrapAdd col base).toNat ∧ (wrapAdd col base).toNat ≤ 3 then
        (setcurProgram cfg row col).length = 15 ∧
          waitSum (eventsOf cfg (setcurProgram cfg row col)) = B + delayUs cfg .long
      else (setcurProgram cfg row col).length = 14 ∧ waitSum (eventsOf cfg (setcurProgram cfg row col)) = B) ∧
    (∀ row col, cursorBase cfg row = none →
      (setcurProgram cfg row col).length = 0 ∧ waitSum (eventsOf cfg (setcurProgram cfg row col)) = 0) ∧
    (∀ c, (wrcharProgram c).length = 14 ∧ waitSum (eventsOf cfg (wrcharProgram c)) = B) ∧
    (∀ slot pat, (addcharProgram slot pat).length = 140 ∧
      waitSum (eventsOf cfg (addcharProgram slot pat)) = 10 * B) ∧
    (∀ v, DcOk v → (dcProgram v).length = 15 ∧ waitSum (eventsOf cfg (dcProgram v)) = B) ∧
    (∀ v, EmOk v → (emProgram v).length = 15 ∧ waitSum (eventsOf cfg (emProgram v)) = B)

/-- R146, R147: in real time EN is high for at least `T_EN_US`, which is at least the short delay, and the data lines
are set at least `T_AS_US` before it rises, in every byte transfer and every lone nibble of every admissible timing. -/
def Obligations.EnableIsHighLongEnough : Prop :=
  ∀ (cfg : Config) (ops : List MicroOp) (before after : List Event) (time : Nat → ℝ) (i : Nat),
    (∃ v m, ops = xfer v m) ∨ (∃ n, ops = nibw n) →
    Admissible time (before ++ eventsOf cfg ops ++ after) →
    before.length ≤ i → i < before.length + (eventsOf cfg ops).length →
    (before ++ eventsOf cfg ops ++ after)[i]? = some (.en true) →
    (before ++ eventsOf cfg ops ++ after)[i + 2]? = some (.en false) ∧
    (delayUs cfg .enable : ℝ) ≤ time (i + 2) - time i ∧ delayUs cfg .short ≤ delayUs cfg .enable ∧
    (∃ n, (before ++ eventsOf cfg ops ++ after)[i - 2]? = some (.d n)) ∧
    (delayUs cfg .setup : ℝ) ≤ time i - time (i - 2)

/-! ## The observer's side and the host reference -/

/-- R73, R84, R85, R214: to an LCD in 4-bit mode that counts up, ADDCHAR writes the rows' low five bits to CGRAM 8s to
8s+7, leaves DDRAM alone, and ends with AC at DDRAM 0. It rests on the assumptions about the LCD (log 9). -/
def Obligations.GlyphUploadReachesCgram : Prop :=
  ∀ (l : Lcd) (dc em m slot b : Byte) (pat : Pattern), l.fourBit = true → l.em = some m → m.getLsbD 1 = true →
    slot.toNat ≤ 7 →
    let l' := (itemsOf dc em (.addchar slot pat b)).foldl lcdStep l
    l'.ac = some (.ddram (some 0#7)) ∧ l'.ddram = l.ddram ∧
      ∀ i, i < 8 → cellAt l'.cgram (glyphAddress slot.toNat i) = some (patternRow pat i &&& 0x1F#8)

/-- R317: what INIT makes known of the LCD, whatever was known before. It rests on the assumptions about the LCD
(log 9). -/
def Obligations.InitBringsUpTheLcd : Prop :=
  ∀ (l : Lcd) (dc em : Byte) (u : Unread),
    (itemsOf dc em (.init u)).foldl lcdStep l =
      { synced := 0, fourBit := true, ac := some (.ddram (some 0#7)), dc := some 0x0C#8, em := some 0x06#8
        function := some 0x28#8, shift := none, ddram := [], cgram := [] }

/-- R254: the digit count. -/
def Obligations.DigitCountIsLeast : Prop :=
  digitCount 0 = 1 ∧ ∀ m, 0 < m → m < 10 ^ digitCount m ∧ ∀ n, m < 10 ^ n → digitCount m ≤ n

/-- R253, R255: WRINT writes `max(L - n, 0)` spaces and then exactly the n decimal digits of the magnitude, most
significant first, for every width of the argument. -/
def Obligations.WrintWritesTheMagnitude : Prop :=
  ∀ (w : Nat) (v : BitVec w) (L : Byte), ∃ ds : List Byte,
    wrInt v L = (List.replicate (L.toNat - digitCount v.toInt.natAbs) 0x20#8 ++ ds).map putChar ∧
    ds.length = digitCount v.toInt.natAbs ∧ (∀ c ∈ ds, 0x30 ≤ c.toNat ∧ c.toNat ≤ 0x39) ∧
    ds.foldl (fun acc c => 10 * acc + (c.toNat - 0x30)) 0 = v.toInt.natAbs

/-- R256, R257: the width of WRFLOAT's output, in every float format, when the integer part is exact. -/
def Obligations.WrfloatWidth : Prop :=
  ∀ (fmt : FloatFormat) (uintW ip : Nat) (draw : Nat → Byte) (special : List Byte) (draws : RenderDraws) (x : fmt.Value)
    (L F : Byte), fmt.trunc (fmt.magnitude x) = some ip → ip < 2 ^ uintW →
    let width :=
      if F.toNat + 1 ≤ L.toNat then max L.toNat (digitCount ip + 1 + F.toNat) else digitCount ip + 1 + F.toNat
    (wrFloatWith fmt uintW draw special x L F).length = width ∧ (wrFloat fmt uintW draws x L F).length = width

/-! ## The shadow relation, step by step -/

/-- R39, R324: as long as the outside issues requests with in-range operands (or the block checks them), every step, RST
too, keeps the relation: when the micro-program under way completes and the block is Ready, each shadow is the last byte
of its class that was sent. -/
def Obligations.StepKeepsShadowsSettled : Prop :=
  ∀ s t : State, Inv s → ShadowsSettle s → InputKeepsShadows s → step s = .next t → ShadowsSettle t

/-- R39, R48, R312: the relation of StepKeepsShadowsSettled holds at reset, where the block is not Ready. -/
def Obligations.ShadowsSettledAtReset : Prop := ShadowsSettle State.reset

/-! ## The observer's side, in any entry mode -/

/-- R74, R84, R323: in whatever entry mode, known or not, ADDCHAR with a slot 0 to 7 leaves DDRAM alone and ends with AC
at DDRAM 0, to an LCD in 4-bit mode. It rests on the assumptions about the LCD (log 9). -/
def Obligations.GlyphUploadSparesDdram : Prop :=
  ∀ (l : Lcd) (dc em slot b : Byte) (pat : Pattern), l.fourBit = true → slot.toNat ≤ 7 →
    let l' := (itemsOf dc em (.addchar slot pat b)).foldl lcdStep l
    l'.ac = some (.ddram (some 0#7)) ∧ l'.ddram = l.ddram

/-! ## The fraction digits of the host reference -/

/-- R256, R258, and 93_implementation_defined.md I19: with an exact integer part WRFLOAT writes it, a '.', and F digits,
each within 0x30-0x39: digit k is the last digit of the whole part of the fraction multiplied k + 1 times by 10, and
where that is past `UINT_W`, or has none, the digit drawn. That the bound of I19 is kept for drawn digits, where the words
of R258 admit any byte, is the model's choice (log 10). -/
def Obligations.WrfloatFractionDigits : Prop :=
  ∀ (fmt : FloatFormat) (uintW ip : Nat) (draws : RenderDraws) (x : fmt.Value) (L F : Byte),
    fmt.trunc (fmt.magnitude x) = some ip → ip < 2 ^ uintW →
    ∃ ds : List Byte,
      wrFloat fmt uintW draws x L F =
        wrNat ip (if F.toNat + 1 ≤ L.toNat then L.toNat - F.toNat - 1 else 0) ++ (0x2E#8 :: ds).map putChar ∧
      ds.length = F.toNat ∧ (∀ c ∈ ds, 0x30 ≤ c.toNat ∧ c.toNat ≤ 0x39) ∧
      ∀ k, k < F.toNat →
        let fr := (fun y => fmt.mul y (fmt.ofNat 10))^[k + 1] (fmt.sub (fmt.magnitude x) (fmt.ofNat ip))
        (∀ t, fmt.trunc fr = some t → t < 2 ^ uintW → ds[k]? = some (BitVec.ofNat 8 (0x30 + t % 10))) ∧
        ((∀ t, fmt.trunc fr = some t → 2 ^ uintW ≤ t) →
          ds[k]? = some (BitVec.ofNat 8 (0x30 + (draws.digit k).val)))
end

