-- ==== Sys2Proof/Laws/Encoding.lean ====
section
/-! SUPPORT. The request word and its fields: splitting and joining are inverse (R100). -/

namespace Sys2Proof

theorem splitRequest_joinRequest (r : Request) : splitRequest (joinRequest r) r.pat = r := by
  obtain ⟨op, a, b, pat⟩ := r
  simp only [splitRequest, joinRequest, Request.mk.injEq, and_true]
  refine ⟨?_, ?_, ?_⟩ <;> apply BitVec.eq_of_getLsbD_eq <;> intro i hi <;>
    simp only [BitVec.getLsbD_extractLsb', BitVec.getLsbD_append, hi, decide_true, Bool.true_and]
  · simp [hi]
  · have h1 : ¬ 8 + i < 8 := by omega
    have h2 : 8 + i < 8 + 8 := by omega
    simp [hi, h1]
  · have h1 : ¬ 16 + i < 8 := by omega
    have h2 : 16 + i - 8 = 8 + i := by omega
    have h3 : ¬ 8 + i < 8 := by omega
    simp [h1, h2, h3]

theorem joinRequest_splitRequest (req : BitVec 24) (pat : Pattern) : joinRequest (splitRequest req pat) = req := by
  simp only [joinRequest, splitRequest]
  apply BitVec.eq_of_getLsbD_eq
  intro i hi
  simp only [BitVec.getLsbD_extractLsb', BitVec.getLsbD_append]
  by_cases h1 : i < 8
  · simp [h1]
  · by_cases h2 : i - 8 < 8
    · have h3 : 8 + (i - 8) = i := by omega
      simp [h1, h2, h3]
    · have h3 : i - 8 - 8 < 8 := by omega
      have h4 : 16 + (i - 8 - 8) = i := by omega
      simp [h1, h2, h3, h4]

@[simp] theorem splitRequest_pat (req : BitVec 24) (pat : Pattern) : (splitRequest req pat).pat = pat := rfl

/-- A request instruction decodes from the word of its request. -/
theorem decode_requestWord (r : Request) : decode (requestWord r) = decodeRequest r := by
  simp [requestWord, decode, splitRequest_joinRequest]

end Sys2Proof
end

