-- ==== Sys2Proof/Laws/State.lean ====
section
/-! SUPPORT. One lemma per field per update of the state, each true by rfl, so that no later proof unfolds an update. -/

namespace Sys2Proof.Machine

@[simp] theorem emit_upc (e : Event) (s : State) : (emit e s).upc = s.upc := rfl
@[simp] theorem emit_useq (e : Event) (s : State) : (emit e s).useq = s.useq := rfl
@[simp] theorem emit_busy (e : Event) (s : State) : (emit e s).busy = s.busy := rfl
@[simp] theorem emit_req (e : Event) (s : State) : (emit e s).req = s.req := rfl
@[simp] theorem emit_fsm (e : Event) (s : State) : (emit e s).fsm = s.fsm := rfl
@[simp] theorem emit_dc (e : Event) (s : State) : (emit e s).dc = s.dc := rfl
@[simp] theorem emit_em (e : Event) (s : State) : (emit e s).em = s.em := rfl
@[simp] theorem emit_rs (e : Event) (s : State) : (emit e s).rs = s.rs := rfl
@[simp] theorem emit_en (e : Event) (s : State) : (emit e s).en = s.en := rfl
@[simp] theorem emit_d (e : Event) (s : State) : (emit e s).d = s.d := rfl
@[simp] theorem emit_oe (e : Event) (s : State) : (emit e s).oe = s.oe := rfl
@[simp] theorem emit_err (e : Event) (s : State) : (emit e s).err = s.err := rfl
@[simp] theorem emit_trace (e : Event) (s : State) : (emit e s).trace = s.trace ++ [e] := rfl
@[simp] theorem emit_inputs (e : Event) (s : State) : (emit e s).inputs = s.inputs := rfl

@[simp] theorem raise_upc (k : ErrorKind) (s : State) : (raise k s).upc = s.upc := rfl
@[simp] theorem raise_useq (k : ErrorKind) (s : State) : (raise k s).useq = s.useq := rfl
@[simp] theorem raise_busy (k : ErrorKind) (s : State) : (raise k s).busy = s.busy := rfl
@[simp] theorem raise_req (k : ErrorKind) (s : State) : (raise k s).req = s.req := rfl
@[simp] theorem raise_fsm (k : ErrorKind) (s : State) : (raise k s).fsm = s.fsm := rfl
@[simp] theorem raise_dc (k : ErrorKind) (s : State) : (raise k s).dc = s.dc := rfl
@[simp] theorem raise_em (k : ErrorKind) (s : State) : (raise k s).em = s.em := rfl
@[simp] theorem raise_rs (k : ErrorKind) (s : State) : (raise k s).rs = s.rs := rfl
@[simp] theorem raise_en (k : ErrorKind) (s : State) : (raise k s).en = s.en := rfl
@[simp] theorem raise_d (k : ErrorKind) (s : State) : (raise k s).d = s.d := rfl
@[simp] theorem raise_oe (k : ErrorKind) (s : State) : (raise k s).oe = s.oe := rfl
@[simp] theorem raise_err (k : ErrorKind) (s : State) : (raise k s).err = setError k s.err := rfl
@[simp] theorem raise_trace (k : ErrorKind) (s : State) : (raise k s).trace = s.trace := rfl
@[simp] theorem raise_inputs (k : ErrorKind) (s : State) : (raise k s).inputs = s.inputs := rfl

@[simp] theorem upload_upc (r : Request) (ops : List MicroOp) (s : State) : (upload r ops s).upc = 0x00#8 := rfl
@[simp] theorem upload_useq (r : Request) (ops : List MicroOp) (s : State) : (upload r ops s).useq = ops := rfl
@[simp] theorem upload_busy (r : Request) (ops : List MicroOp) (s : State) : (upload r ops s).busy = !ops.isEmpty := rfl
@[simp] theorem upload_req (r : Request) (ops : List MicroOp) (s : State) : (upload r ops s).req = r := rfl
@[simp] theorem upload_fsm (r : Request) (ops : List MicroOp) (s : State) : (upload r ops s).fsm = s.fsm := rfl
@[simp] theorem upload_dc (r : Request) (ops : List MicroOp) (s : State) : (upload r ops s).dc = s.dc := rfl
@[simp] theorem upload_em (r : Request) (ops : List MicroOp) (s : State) : (upload r ops s).em = s.em := rfl
@[simp] theorem upload_rs (r : Request) (ops : List MicroOp) (s : State) : (upload r ops s).rs = s.rs := rfl
@[simp] theorem upload_en (r : Request) (ops : List MicroOp) (s : State) : (upload r ops s).en = s.en := rfl
@[simp] theorem upload_d (r : Request) (ops : List MicroOp) (s : State) : (upload r ops s).d = s.d := rfl
@[simp] theorem upload_oe (r : Request) (ops : List MicroOp) (s : State) : (upload r ops s).oe = s.oe := rfl
@[simp] theorem upload_err (r : Request) (ops : List MicroOp) (s : State) : (upload r ops s).err = s.err := rfl
@[simp] theorem upload_trace (r : Request) (ops : List MicroOp) (s : State) : (upload r ops s).trace = s.trace := rfl
@[simp] theorem upload_inputs (r : Request) (ops : List MicroOp) (s : State) : (upload r ops s).inputs = s.inputs := rfl

@[simp] theorem assertReset_upc (s : State) : (assertReset s).upc = 0x00#8 := rfl
@[simp] theorem assertReset_useq (s : State) : (assertReset s).useq = [] := rfl
@[simp] theorem assertReset_busy (s : State) : (assertReset s).busy = false := rfl
@[simp] theorem assertReset_req (s : State) : (assertReset s).req = { op := 0x00#8, a := 0x00#8, b := 0x00#8, pat := 0#64 } := rfl
@[simp] theorem assertReset_fsm (s : State) : (assertReset s).fsm = .uninitialized := rfl
@[simp] theorem assertReset_dc (s : State) : (assertReset s).dc = 0x0C#8 := rfl
@[simp] theorem assertReset_em (s : State) : (assertReset s).em = 0x06#8 := rfl
@[simp] theorem assertReset_rs (s : State) : (assertReset s).rs = false := rfl
@[simp] theorem assertReset_en (s : State) : (assertReset s).en = false := rfl
@[simp] theorem assertReset_d (s : State) : (assertReset s).d = 0x0#4 := rfl
@[simp] theorem assertReset_oe (s : State) : (assertReset s).oe = false := rfl
@[simp] theorem assertReset_err (s : State) : (assertReset s).err = Errors.clear := rfl
@[simp] theorem assertReset_trace (s : State) : (assertReset s).trace = [] := rfl
@[simp] theorem assertReset_inputs (s : State) : (assertReset s).inputs = s.inputs := rfl

@[simp] theorem advanceUpc_upc (s : State) : (advanceUpc s).upc = s.upc + 1#8 := rfl
@[simp] theorem advanceUpc_useq (s : State) : (advanceUpc s).useq = s.useq := rfl
@[simp] theorem advanceUpc_busy (s : State) : (advanceUpc s).busy = s.busy := rfl
@[simp] theorem advanceUpc_req (s : State) : (advanceUpc s).req = s.req := rfl
@[simp] theorem advanceUpc_fsm (s : State) : (advanceUpc s).fsm = s.fsm := rfl
@[simp] theorem advanceUpc_dc (s : State) : (advanceUpc s).dc = s.dc := rfl
@[simp] theorem advanceUpc_em (s : State) : (advanceUpc s).em = s.em := rfl
@[simp] theorem advanceUpc_rs (s : State) : (advanceUpc s).rs = s.rs := rfl
@[simp] theorem advanceUpc_en (s : State) : (advanceUpc s).en = s.en := rfl
@[simp] theorem advanceUpc_d (s : State) : (advanceUpc s).d = s.d := rfl
@[simp] theorem advanceUpc_oe (s : State) : (advanceUpc s).oe = s.oe := rfl
@[simp] theorem advanceUpc_err (s : State) : (advanceUpc s).err = s.err := rfl
@[simp] theorem advanceUpc_trace (s : State) : (advanceUpc s).trace = s.trace := rfl
@[simp] theorem advanceUpc_inputs (s : State) : (advanceUpc s).inputs = s.inputs := rfl

@[simp] theorem complete_upc (s : State) : (complete s).upc = 0x00#8 := rfl
@[simp] theorem complete_useq (s : State) : (complete s).useq = [] := rfl
@[simp] theorem complete_busy (s : State) : (complete s).busy = false := rfl
@[simp] theorem complete_req (s : State) : (complete s).req = s.req := rfl
@[simp] theorem complete_fsm (s : State) : (complete s).fsm = s.fsm := rfl
@[simp] theorem complete_dc (s : State) : (complete s).dc = s.dc := rfl
@[simp] theorem complete_em (s : State) : (complete s).em = s.em := rfl
@[simp] theorem complete_rs (s : State) : (complete s).rs = s.rs := rfl
@[simp] theorem complete_en (s : State) : (complete s).en = s.en := rfl
@[simp] theorem complete_d (s : State) : (complete s).d = s.d := rfl
@[simp] theorem complete_oe (s : State) : (complete s).oe = s.oe := rfl
@[simp] theorem complete_err (s : State) : (complete s).err = s.err := rfl
@[simp] theorem complete_trace (s : State) : (complete s).trace = s.trace := rfl
@[simp] theorem complete_inputs (s : State) : (complete s).inputs = s.inputs := rfl

end Sys2Proof.Machine
end

