-- ==== Sys2Proof/Laws/Ops.lean ====
section
/-! SUPPORT. What each shared operation can do, once: the frame of a micro-op and of a stretch of micro-program, the net
effect of the transfer macros, and the outcomes of acceptance and of a sequencer step. -/

namespace Sys2Proof.Machine

/-! ## Micro-ops -/

/-- A micro-op leaves the sequencer, the latch, the error bits and the inputs alone, and appends its event (R140). -/
theorem applyOp_frame (cfg : Config) (op : MicroOp) (s : State) :
    (applyOp cfg op s).upc = s.upc ∧ (applyOp cfg op s).useq = s.useq ∧ (applyOp cfg op s).busy = s.busy ∧
      (applyOp cfg op s).req = s.req ∧ (applyOp cfg op s).err = s.err ∧ (applyOp cfg op s).inputs = s.inputs ∧
      (applyOp cfg op s).trace = s.trace ++ (eventOf cfg op).toList := by
  cases op <;> simp [applyOp, eventOf]

@[simp] theorem applyOp_upc (cfg : Config) (op : MicroOp) (s : State) : (applyOp cfg op s).upc = s.upc :=
  (applyOp_frame cfg op s).1

@[simp] theorem applyOp_useq (cfg : Config) (op : MicroOp) (s : State) : (applyOp cfg op s).useq = s.useq :=
  (applyOp_frame cfg op s).2.1

@[simp] theorem applyOp_busy (cfg : Config) (op : MicroOp) (s : State) : (applyOp cfg op s).busy = s.busy :=
  (applyOp_frame cfg op s).2.2.1

@[simp] theorem applyOp_req (cfg : Config) (op : MicroOp) (s : State) : (applyOp cfg op s).req = s.req :=
  (applyOp_frame cfg op s).2.2.2.1

@[simp] theorem applyOp_err (cfg : Config) (op : MicroOp) (s : State) : (applyOp cfg op s).err = s.err :=
  (applyOp_frame cfg op s).2.2.2.2.1

@[simp] theorem applyOp_inputs (cfg : Config) (op : MicroOp) (s : State) : (applyOp cfg op s).inputs = s.inputs :=
  (applyOp_frame cfg op s).2.2.2.2.2.1

theorem applyOp_trace (cfg : Config) (op : MicroOp) (s : State) :
    (applyOp cfg op s).trace = s.trace ++ (eventOf cfg op).toList :=
  (applyOp_frame cfg op s).2.2.2.2.2.2

/-- A micro-op does not read `upc`, and moving on does not disturb its effect. -/
theorem applyOp_advanceUpc (cfg : Config) (op : MicroOp) (s : State) :
    applyOp cfg op (advanceUpc s) = advanceUpc (applyOp cfg op s) := by
  cases op <;> rfl

/-- A micro-op does not read the sequencer's registers: completing first or after is the same. -/
theorem applyOp_complete (cfg : Config) (op : MicroOp) (s : State) :
    applyOp cfg op (complete s) = complete (applyOp cfg op s) := by
  cases op <;> rfl

/-- A micro-op does not read the request latch. -/
theorem applyOp_req_update (cfg : Config) (op : MicroOp) (s : State) (r : Request) :
    applyOp cfg op { s with req := r } = { applyOp cfg op s with req := r } := by
  cases op <;> rfl

/-- Completing after moving on is completing. -/
@[simp] theorem complete_advanceUpc (s : State) : complete (advanceUpc s) = complete s := rfl

/-! ## Stretches of micro-program -/

@[simp] theorem applyAll_nil (cfg : Config) (s : State) : applyAll cfg [] s = s := rfl

@[simp] theorem applyAll_cons (cfg : Config) (op : MicroOp) (ops : List MicroOp) (s : State) :
    applyAll cfg (op :: ops) s = applyAll cfg ops (applyOp cfg op s) := rfl

theorem applyAll_append (cfg : Config) (xs ys : List MicroOp) (s : State) :
    applyAll cfg (xs ++ ys) s = applyAll cfg ys (applyAll cfg xs s) := by
  simp [applyAll, List.foldl_append]

/-- The frame of a stretch of micro-program. -/
theorem applyAll_frame (cfg : Config) (ops : List MicroOp) (s : State) :
    (applyAll cfg ops s).upc = s.upc ∧ (applyAll cfg ops s).useq = s.useq ∧ (applyAll cfg ops s).busy = s.busy ∧
      (applyAll cfg ops s).req = s.req ∧ (applyAll cfg ops s).err = s.err ∧ (applyAll cfg ops s).inputs = s.inputs := by
  induction ops generalizing s with
  | nil => simp
  | cons op ops ih => simpa using ih (applyOp cfg op s)

@[simp] theorem eventsOf_nil (cfg : Config) : eventsOf cfg [] = [] := rfl

theorem eventsOf_cons (cfg : Config) (op : MicroOp) (ops : List MicroOp) :
    eventsOf cfg (op :: ops) = (eventOf cfg op).toList ++ eventsOf cfg ops := by
  simp only [eventsOf, List.filterMap_cons]
  cases eventOf cfg op <;> simp

theorem eventsOf_append (cfg : Config) (xs ys : List MicroOp) :
    eventsOf cfg (xs ++ ys) = eventsOf cfg xs ++ eventsOf cfg ys := by simp [eventsOf]

/-- A stretch of micro-program appends its events to the trace, in order (R45, R87). -/
theorem applyAll_trace (cfg : Config) (ops : List MicroOp) (s : State) :
    (applyAll cfg ops s).trace = s.trace ++ eventsOf cfg ops := by
  induction ops generalizing s with
  | nil => simp
  | cons op ops ih => rw [applyAll_cons, ih, applyOp_trace, eventsOf_cons, List.append_assoc]

theorem applyAll_advanceUpc (cfg : Config) (ops : List MicroOp) (s : State) :
    applyAll cfg ops (advanceUpc s) = advanceUpc (applyAll cfg ops s) := by
  induction ops generalizing s with
  | nil => rfl
  | cons op ops ih => rw [applyAll_cons, applyOp_advanceUpc, ih, applyAll_cons]

theorem applyAll_complete (cfg : Config) (ops : List MicroOp) (s : State) :
    applyAll cfg ops (complete s) = complete (applyAll cfg ops s) := by
  induction ops generalizing s with
  | nil => rfl
  | cons op ops ih => rw [applyAll_cons, applyOp_complete, ih, applyAll_cons]

theorem applyAll_en (cfg : Config) (ops : List MicroOp) (s : State) : (applyAll cfg ops s).en = enAfter s.en ops := by
  induction ops generalizing s with
  | nil => rfl
  | cons op ops ih => rw [applyAll_cons, ih]; cases op <;> rfl

theorem applyAll_oe (cfg : Config) (ops : List MicroOp) (s : State) : (applyAll cfg ops s).oe = oeAfter s.oe ops := by
  induction ops generalizing s with
  | nil => rfl
  | cons op ops ih => rw [applyAll_cons, ih]; cases op <;> rfl

theorem applyAll_fsm (cfg : Config) (ops : List MicroOp) (s : State) :
    (applyAll cfg ops s).fsm = fsmAfter s.fsm ops := by
  induction ops generalizing s with
  | nil => rfl
  | cons op ops ih => rw [applyAll_cons, ih]; cases op <;> rfl

/-! ## The transfer macros -/

/-- NIBW(n): the data lines hold n, EN is 0, and RS is untouched (R142, R146). -/
theorem applyAll_nibw (cfg : Config) (n : Nibble) (s : State) :
    applyAll cfg (nibw n) s = { s with d := n, en := false, trace := s.trace ++ eventsOf cfg (nibw n) } := by
  simp [nibw, pulse, applyAll, applyOp, emit, eventsOf, eventOf]

/-- XFER(v, m): RS holds the mode and the data lines the low nibble (R143). -/
theorem applyAll_xfer (cfg : Config) (v : Byte) (m : Bool) (s : State) :
    applyAll cfg (xfer v m) s =
      { s with rs := m, en := false, d := loNibble v, trace := s.trace ++ eventsOf cfg (xfer v m) } := by
  simp [xfer, nibw, pulse, applyAll, applyOp, emit, eventsOf, eventOf]

theorem applyAll_wcmd (cfg : Config) (v : Byte) (s : State) :
    applyAll cfg (wcmd v) s =
      { s with rs := false, en := false, d := loNibble v, trace := s.trace ++ eventsOf cfg (wcmd v) } := by
  rw [wcmd, applyAll_append, applyAll_xfer, eventsOf_append]
  cases longCommand v <;> simp [applyAll, applyOp, emit, eventsOf, eventOf]

theorem applyAll_wdata (cfg : Config) (v : Byte) (s : State) :
    applyAll cfg (wdata v) s =
      { s with rs := true, en := false, d := loNibble v, trace := s.trace ++ eventsOf cfg (wdata v) } := by
  rw [wdata, applyAll_append, applyAll_xfer, eventsOf_append]
  simp [applyAll, applyOp, emit, eventsOf, eventOf]

@[simp] theorem nibw_length (n : Nibble) : (nibw n).length = 6 := rfl

@[simp] theorem wdata_length (v : Byte) : (wdata v).length = 14 := rfl

@[simp] theorem wcmd_length (v : Byte) : (wcmd v).length = if longCommand v then 15 else 14 := by
  cases h : longCommand v <;> simp [wcmd, h, xfer, nibw, pulse]

/-! ## Acceptance -/

/-- The four outcomes of acceptance, with the condition of each (R101). -/
theorem issue_cases (cfg : Config) (initReq argsOk : Bool) (r : Request) (ops : List MicroOp) (s : State) :
    (s.busy = true ∧ issue cfg initReq argsOk r ops s = raise .ovr s) ∨
    (s.busy = false ∧ initReq = false ∧ s.fsm ≠ .ready ∧ issue cfg initReq argsOk r ops s = raise .nr s) ∨
    (s.busy = false ∧ (initReq = true ∨ s.fsm = .ready) ∧ argsOk = false ∧ cfg.boundsCheck = true ∧
      issue cfg initReq argsOk r ops s = raise .arg s) ∨
    (s.busy = false ∧ (initReq = true ∨ s.fsm = .ready) ∧ (argsOk = true ∨ cfg.boundsCheck = false) ∧
      issue cfg initReq argsOk r ops s = upload r ops s) := by
  unfold issue
  cases s.busy <;> cases initReq <;> cases argsOk <;> cases cfg.boundsCheck <;> by_cases h : s.fsm = .ready <;> simp [h]

/-- An idle block accepts a request whose operands are in range when the block is Ready, or the request is INIT. -/
theorem issue_accepts (cfg : Config) (initReq : Bool) (r : Request) (ops : List MicroOp) (s : State)
    (hb : s.busy = false) (hr : initReq = true ∨ s.fsm = .ready) :
    issue cfg initReq true r ops s = upload r ops s := by
  unfold issue
  rcases hr with h | h <;> simp [hb, h]

/-! ## The sequencer -/

/-- A sequencer step that answers a next state runs the micro-op at `upc`, and then either completes the micro-program
or moves on by one (R141). -/
theorem sequencerStep_next (cfg : Config) (s t : State) (h : sequencerStep cfg s = .next t) :
    ∃ op, s.useq[s.upc.toNat]? = some op ∧
      (((s.upc + 1#8).toNat = s.useq.length ∧ t = complete (applyOp cfg op s)) ∨
        ((s.upc + 1#8).toNat ≠ s.useq.length ∧ t = advanceUpc (applyOp cfg op s))) := by
  unfold sequencerStep at h
  split at h
  · cases h
  · rename_i op hop
    refine ⟨op, hop, ?_⟩
    simp only [advanceUpc_upc, advanceUpc_useq, applyOp_upc, applyOp_useq, complete_advanceUpc] at h
    split at h
    · rename_i hl
      exact .inl ⟨hl, (Host.Outcome.next.inj h).symm⟩
    · rename_i hl
      exact .inr ⟨hl, (Host.Outcome.next.inj h).symm⟩

/-- A step of a busy block whose micro-program has more than the micro-op at `upc`. -/
theorem sequencerStep_more (cfg : Config) (s : State) (op : MicroOp) (h : s.useq[s.upc.toNat]? = some op)
    (hl : (s.upc + 1#8).toNat ≠ s.useq.length) :
    sequencerStep cfg s = .next (advanceUpc (applyOp cfg op s)) := by
  simp only [sequencerStep, h, advanceUpc_upc, advanceUpc_useq, applyOp_upc, applyOp_useq, if_neg hl]

/-- A step of a busy block at the last micro-op. -/
theorem sequencerStep_last (cfg : Config) (s : State) (op : MicroOp) (h : s.useq[s.upc.toNat]? = some op)
    (hl : (s.upc + 1#8).toNat = s.useq.length) :
    sequencerStep cfg s = .next (complete (applyOp cfg op s)) := by
  simp only [sequencerStep, h, advanceUpc_upc, advanceUpc_useq, applyOp_upc, applyOp_useq, if_pos hl, complete_advanceUpc]

/-! ## The shadow relation -/

/-- At a request boundary the settled relation is R39 itself. -/
theorem shadowsSettle_boundary (s : State) (h : remaining s = []) :
    ShadowsSettle s ↔ (s.fsm = .ready → ShadowsMatch s) := by
  simp [ShadowsSettle, h, fsmAfter]

/-- A state whose micro-program under way ends where that of a settled state ends is settled. -/
theorem shadowsSettle_congr (s t : State)
    (ht : applyAll Config.build (remaining t) t = applyAll Config.build (remaining s) s) (h : ShadowsSettle s) :
    ShadowsSettle t := by
  unfold ShadowsSettle at *
  rwa [← applyAll_fsm Config.build, ht, applyAll_fsm]

end Sys2Proof.Machine
end

