-- ==== Sys2Proof/Laws/Observe.lean ====
section
/-! SUPPORT. The trace decoder reads a trace in pieces: what it makes of a stretch that is one whole transfer; and the space the LCD's address counter points into. -/

namespace Sys2Proof.Machine

theorem decodeFrom_append (k : Decoder) (xs ys : List Event) :
    decodeFrom k (xs ++ ys) = decodeFrom (decodeFrom k xs) ys := by
  simp [decodeFrom, List.foldl_append]

/-- The two nibbles of a byte, joined again. -/
theorem hiNibble_append_loNibble (v : Byte) : hiNibble v ++ loNibble v = v := by
  have h : ∀ v : BitVec 8, hiNibble v ++ loNibble v = v := by decide
  exact h v

/-- A decoder between two transfers. -/
abbrev AtByte (k : Decoder) : Prop := k.en = false ∧ k.lone = 0 ∧ k.high = none

/-- A byte transfer read from between two transfers is one more item, and the decoder is between transfers again
(R109, R110). -/
theorem decodeFrom_xfer (cfg : Config) (v : Byte) (m : Bool) (k : Decoder) (h : AtByte k) :
    AtByte (decodeFrom k (eventsOf cfg (xfer v m))) ∧
      (decodeFrom k (eventsOf cfg (xfer v m))).items = k.items ++ [if m then .dat v else .cmd v] := by
  obtain ⟨he, hl, hh⟩ := h
  have hv := hiNibble_append_loNibble v
  cases m <;>
    simp [xfer, nibw, pulse, eventsOf, eventOf, decodeFrom, decodeEvent, sample, he, hl, hh, byteItem, hv, AtByte]

/-- A wait changes neither the items nor where the decoder stands. -/
theorem decodeFrom_wait (t : Nat) (k : Decoder) :
    (decodeFrom k [.wait t]).items = k.items ∧ (AtByte k → AtByte (decodeFrom k [.wait t])) := by
  simp [decodeFrom, decodeEvent]

/-! ## The LCD's address counter -/

/-- Moving the address counter keeps its space (R84). -/
@[simp] theorem movePointer_space (forward : Bool) (p : Pointer) : (movePointer forward p).space = p.space := by
  cases p <;> rfl

/-- A DATA byte that goes to CGRAM leaves DDRAM alone, and AC in CGRAM (R84). -/
theorem lcdData_cgram (v : Byte) (l : Lcd) (addr : Option (BitVec 6)) (h : l.ac = some (.cgram addr)) :
    (lcdData v l).ddram = l.ddram ∧ (lcdData v l).fourBit = l.fourBit ∧ (lcdData v l).em = l.em ∧
      ∃ addr', (lcdData v l).ac = some (.cgram addr') := by
  cases addr <;> cases he : l.em <;> simp [lcdData, h, he, movePointer, Pointer.space]

end Sys2Proof.Machine
end

