-- ==== Sys2Proof/Laws/Step.lean ====
section
/-! SUPPORT. What a step can do, once, and what the meanings have in common: a request is one call of acceptance, a bus row
is one transfer. Every invariant is derived from these. -/

namespace Sys2Proof.Machine

/-- The mechanism of R230, at each toggle's opcode: the mask each toggle's own rule writes (R231-R240). -/
theorem toggleProgram_each (dc em : Byte) :
    toggleProgram 0x10#8 dc em = dcProgram (dc &&& ~~~0x04#8) ∧ toggleProgram 0x11#8 dc em = dcProgram (dc ||| 0x04#8) ∧
    toggleProgram 0x12#8 dc em = dcProgram (dc &&& ~~~0x02#8) ∧ toggleProgram 0x13#8 dc em = dcProgram (dc ||| 0x02#8) ∧
    toggleProgram 0x14#8 dc em = dcProgram (dc &&& ~~~0x01#8) ∧ toggleProgram 0x15#8 dc em = dcProgram (dc ||| 0x01#8) ∧
    toggleProgram 0x16#8 dc em = emProgram (em &&& ~~~0x02#8) ∧ toggleProgram 0x17#8 dc em = emProgram (em ||| 0x02#8) ∧
    toggleProgram 0x18#8 dc em = emProgram (em &&& ~~~0x01#8) ∧ toggleProgram 0x19#8 dc em = emProgram (em ||| 0x01#8) := by
  simp [toggleProgram, setBit, BitVec.twoPow]

/-- A request's meaning is acceptance of some micro-program, and that program is `expand` of its request. -/
theorem exec_request (r : Request) (i : Instr) (h : decodeRequest r = some i) (s : State) :
    exec i s = .next (issue Config.build (r.op == 0x01#8) (argsValid r.op r.a r.b) r
      (expand Config.build r s.dc s.em) s) := by
  obtain ⟨op, a, b, pat⟩ := r
  simp only [decodeRequest] at h
  split at h <;> simp only [Option.some.injEq, reduceCtorEq] at h <;> subst h <;>
    first
    | rfl
    | simp [exec, execDispoff, execDispon, execUloff, execUlon, execBlinkoff, execBlinkon, execEntdec, execEntinc,
        execEntshoff, execEntshon, expand, argsValid, requestN, unreadOf, toggleProgram_each]

/-- An opcode without an instruction is a reserved one (R106). -/
theorem decodeRequest_none (r : Request) : decodeRequest r = none ↔ reservedOp r.op = true := by
  obtain ⟨op, a, b, pat⟩ := r
  have h : ∀ op : BitVec 8, ((decodeRequest ⟨op, 0#8, 0#8, 0#64⟩).isNone = reservedOp op) := by decide
  rw [← h op]
  simp only [decodeRequest]
  split <;> simp

/-- A bus row's meaning is one transfer of one byte or nibble. -/
theorem exec_bus (w : InstrWord) (i : Instr) (h : decode w = some i) (hw : ∀ req pat, w ≠ .request req pat) (s : State) :
    exec i s = .next (applyAll Config.build (match w with
      | .command v => wcmd v
      | .data v => wdata v
      | .nibble n => nibw n
      | .request _ _ => []) s) := by
  cases w with
  | request req pat => exact absurd rfl (hw req pat)
  | data v => simp only [decode, Option.some.injEq] at h; subst h; rfl
  | nibble n =>
    simp only [decode, decodeNibble] at h
    split at h <;> simp only [Option.some.injEq, reduceCtorEq] at h
    subst h; rfl
  | command v =>
    have hd : ∀ v : Byte, ∀ i, decodeCommand v = some i → encode i = .command v := by
      intro v
      have : ∀ v : BitVec 8, (match decodeCommand v with | some i => encode i == .command v | none => true) = true := by
        decide
      intro i hi
      have := this v
      rw [hi] at this
      simpa using this
    have he := hd v i h
    have hreq : ∀ r, requestWord r ≠ .command v := by intro r; simp [requestWord]
    cases i <;> simp only [encode, InstrWord.command.injEq, reduceCtorEq] at he <;>
      first
      | exact absurd he (hreq _)
      | (subst he; rfl)

/-- What a step can do when it answers a next state: one case per kind of input. -/
theorem step_next (s t : State) (h : step s = .next t) :
    (advance Config.build s = .next t ∧ (s.inputs = [] ∨ s.busy = true)) ∨
    (∃ x rest, s.inputs = x :: rest ∧
      ((x = .sequencer ∧ advance Config.build { s with inputs := rest } = .next t) ∨
       ((x = .readStatus ∨ x = .poll ∧ s.busy = false) ∧ t = { s with inputs := rest }) ∨
       (x = .reset ∧ t = assertReset { s with inputs := rest }) ∨
       (∃ req pat, x = .word (.request req pat) ∧ decodeRequest (splitRequest req pat) = none ∧
          t = issueReserved { s with inputs := rest }) ∨
       (∃ req pat i, x = .word (.request req pat) ∧ decodeRequest (splitRequest req pat) = some i ∧
          exec i { s with inputs := rest } = .next t) ∨
       (∃ w i, x = .word w ∧ (∀ req pat, w ≠ .request req pat) ∧ s.busy = false ∧ decode w = some i ∧
          exec i { s with inputs := rest } = .next t))) := by
  unfold step at h
  split at h
  · rename_i hi; exact .inl ⟨h, .inl hi⟩
  · rename_i rest hi; exact .inr ⟨_, _, hi, .inl ⟨rfl, h⟩⟩
  · rename_i rest hi; exact .inr ⟨_, _, hi, .inr (.inl ⟨.inl rfl, (Host.Outcome.next.inj h).symm⟩)⟩
  · rename_i rest hi
    split at h
    · rename_i hb; exact .inl ⟨h, .inr hb⟩
    · rename_i hb
      exact .inr ⟨_, _, hi, .inr (.inl ⟨.inr ⟨rfl, by simpa using hb⟩, (Host.Outcome.next.inj h).symm⟩)⟩
  · rename_i rest hi; exact .inr ⟨_, _, hi, .inr (.inr (.inl ⟨rfl, (Host.Outcome.next.inj h).symm⟩))⟩
  · rename_i req pat rest hi
    split at h
    · rename_i i hd
      exact .inr ⟨_, _, hi, .inr (.inr (.inr (.inr (.inl ⟨req, pat, i, rfl, hd, h⟩))))⟩
    · rename_i hd
      exact .inr ⟨_, _, hi, .inr (.inr (.inr (.inl ⟨req, pat, rfl, hd, (Host.Outcome.next.inj h).symm⟩)))⟩
  · rename_i w rest hw hi
    split at h
    · rename_i hb; exact .inl ⟨h, .inr hb⟩
    · rename_i hb
      split at h
      · rename_i i hd
        refine .inr ⟨_, _, hi, .inr (.inr (.inr (.inr (.inr ⟨w, i, rfl, ?_, by simpa using hb, hd, h⟩))))⟩
        intro req pat e
        exact hw req pat e
      · cases h

end Sys2Proof.Machine
end

