-- ==== Sys2Proof/Laws/PerInstr.lean ====
section
/-! SUPPORT. Statements for all instructions, made per instruction. EncodeMatchesRow: the word of an instruction meets the
match and mask of its row of spec/opcode_table.json. -/

namespace Sys2Proof.Laws

/-- The rows of spec/opcode_table.json: a request row fixes REQ[7:0]; a bus row fixes bits of its byte or nibble. -/
def rowMeets (matchBits mask : Nat) (w : InstrWord) : Prop :=
  match w with
  | .request req _ => req.toNat &&& mask = matchBits
  | .command v => v.toNat &&& mask = matchBits
  | .data v => v.toNat &&& mask = matchBits
  | .nibble n => n.toNat &&& mask = matchBits

/-- The word of the instruction meets its row; the lone nibble is 0x3, or 0x2 as the row's note says. -/
def EncodeMatchesRow.Statement (i : Instr) : Prop :=
  match i with
  | .init _ => rowMeets 0x000001 0x0000FF (encode i)
  | .clear _ => rowMeets 0x000002 0x0000FF (encode i)
  | .home _ => rowMeets 0x000003 0x0000FF (encode i)
  | .shl _ => rowMeets 0x000004 0x0000FF (encode i)
  | .shr _ => rowMeets 0x000005 0x0000FF (encode i)
  | .curinc _ => rowMeets 0x000006 0x0000FF (encode i)
  | .curdec _ => rowMeets 0x000007 0x0000FF (encode i)
  | .setcur _ _ _ => rowMeets 0x000008 0x0000FF (encode i)
  | .wrchar _ _ _ => rowMeets 0x000009 0x0000FF (encode i)
  | .addchar _ _ _ => rowMeets 0x00000A 0x0000FF (encode i)
  | .dispoff _ => rowMeets 0x000010 0x0000FF (encode i)
  | .dispon _ => rowMeets 0x000011 0x0000FF (encode i)
  | .uloff _ => rowMeets 0x000012 0x0000FF (encode i)
  | .ulon _ => rowMeets 0x000013 0x0000FF (encode i)
  | .blinkoff _ => rowMeets 0x000014 0x0000FF (encode i)
  | .blinkon _ => rowMeets 0x000015 0x0000FF (encode i)
  | .entdec _ => rowMeets 0x000016 0x0000FF (encode i)
  | .entinc _ => rowMeets 0x000017 0x0000FF (encode i)
  | .entshoff _ => rowMeets 0x000018 0x0000FF (encode i)
  | .entshon _ => rowMeets 0x000019 0x0000FF (encode i)
  | .functionSet => rowMeets 0x28 0xFF (encode i)
  | .displayControl _ _ _ => rowMeets 0x08 0xF8 (encode i)
  | .entryMode _ _ => rowMeets 0x04 0xFC (encode i)
  | .clearDisplay => rowMeets 0x01 0xFF (encode i)
  | .returnHome => rowMeets 0x02 0xFF (encode i)
  | .shiftLeft => rowMeets 0x18 0xFF (encode i)
  | .shiftRight => rowMeets 0x1C 0xFF (encode i)
  | .cursorInc => rowMeets 0x14 0xFF (encode i)
  | .cursorDec => rowMeets 0x10 0xFF (encode i)
  | .cgramSet _ => rowMeets 0x40 0xC0 (encode i)
  | .ddramSet _ => rowMeets 0x80 0x80 (encode i)
  | .dataByte _ => rowMeets 0x00 0x00 (encode i)
  | .syncNibble n => Instr.wellFormed (.syncNibble n) = true → rowMeets 0x3 0xF (encode i) ∨ rowMeets 0x2 0xF (encode i)

/-- REQ[7:0] of a joined request is its opcode. -/
theorem joinRequest_op (r : Request) : (joinRequest r).toNat &&& 0xFF = r.op.toNat := by
  have h : (joinRequest r).toNat % 256 = r.op.toNat := by
    simp only [joinRequest, BitVec.toNat_append]
    have := r.op.isLt
    rw [← Nat.shiftLeft_add_eq_or_of_lt (by omega), Nat.shiftLeft_eq]
    omega
  rw [← h]
  exact Nat.and_two_pow_sub_one_eq_mod _ 8

theorem EncodeMatchesRow.init (u : Unread) : EncodeMatchesRow.Statement (.init u) := joinRequest_op _

theorem EncodeMatchesRow.clear (u : Unread) : EncodeMatchesRow.Statement (.clear u) := joinRequest_op _

theorem EncodeMatchesRow.home (u : Unread) : EncodeMatchesRow.Statement (.home u) := joinRequest_op _

theorem EncodeMatchesRow.shl (u : Unread) : EncodeMatchesRow.Statement (.shl u) := joinRequest_op _

theorem EncodeMatchesRow.shr (u : Unread) : EncodeMatchesRow.Statement (.shr u) := joinRequest_op _

theorem EncodeMatchesRow.curinc (u : Unread) : EncodeMatchesRow.Statement (.curinc u) := joinRequest_op _

theorem EncodeMatchesRow.curdec (u : Unread) : EncodeMatchesRow.Statement (.curdec u) := joinRequest_op _

theorem EncodeMatchesRow.setcur (row col : Byte) (pat : Pattern) : EncodeMatchesRow.Statement (.setcur row col pat) := joinRequest_op _

theorem EncodeMatchesRow.wrchar (c b : Byte) (pat : Pattern) : EncodeMatchesRow.Statement (.wrchar c b pat) := joinRequest_op _

theorem EncodeMatchesRow.addchar (slot : Byte) (pat : Pattern) (b : Byte) : EncodeMatchesRow.Statement (.addchar slot pat b) := joinRequest_op _

theorem EncodeMatchesRow.dispoff (u : Unread) : EncodeMatchesRow.Statement (.dispoff u) := joinRequest_op _

theorem EncodeMatchesRow.dispon (u : Unread) : EncodeMatchesRow.Statement (.dispon u) := joinRequest_op _

theorem EncodeMatchesRow.uloff (u : Unread) : EncodeMatchesRow.Statement (.uloff u) := joinRequest_op _

theorem EncodeMatchesRow.ulon (u : Unread) : EncodeMatchesRow.Statement (.ulon u) := joinRequest_op _

theorem EncodeMatchesRow.blinkoff (u : Unread) : EncodeMatchesRow.Statement (.blinkoff u) := joinRequest_op _

theorem EncodeMatchesRow.blinkon (u : Unread) : EncodeMatchesRow.Statement (.blinkon u) := joinRequest_op _

theorem EncodeMatchesRow.entdec (u : Unread) : EncodeMatchesRow.Statement (.entdec u) := joinRequest_op _

theorem EncodeMatchesRow.entinc (u : Unread) : EncodeMatchesRow.Statement (.entinc u) := joinRequest_op _

theorem EncodeMatchesRow.entshoff (u : Unread) : EncodeMatchesRow.Statement (.entshoff u) := joinRequest_op _

theorem EncodeMatchesRow.entshon (u : Unread) : EncodeMatchesRow.Statement (.entshon u) := joinRequest_op _

theorem EncodeMatchesRow.functionSet : EncodeMatchesRow.Statement .functionSet := rfl

theorem EncodeMatchesRow.displayControl (d c b : Bool) : EncodeMatchesRow.Statement (.displayControl d c b) := by
  cases d <;> cases c <;> cases b <;> rfl

theorem EncodeMatchesRow.entryMode (id sh : Bool) : EncodeMatchesRow.Statement (.entryMode id sh) := by
  cases id <;> cases sh <;> rfl

theorem EncodeMatchesRow.clearDisplay : EncodeMatchesRow.Statement .clearDisplay := rfl

theorem EncodeMatchesRow.returnHome : EncodeMatchesRow.Statement .returnHome := rfl

theorem EncodeMatchesRow.shiftLeft : EncodeMatchesRow.Statement .shiftLeft := rfl

theorem EncodeMatchesRow.shiftRight : EncodeMatchesRow.Statement .shiftRight := rfl

theorem EncodeMatchesRow.cursorInc : EncodeMatchesRow.Statement .cursorInc := rfl

theorem EncodeMatchesRow.cursorDec : EncodeMatchesRow.Statement .cursorDec := rfl

theorem EncodeMatchesRow.cgramSet (addr : BitVec 6) : EncodeMatchesRow.Statement (.cgramSet addr) := by
  have h : ∀ n : BitVec 6, ((cgramSetByte n).toNat &&& 0xC0) = 0x40 := by decide
  exact h addr

theorem EncodeMatchesRow.ddramSet (addr : BitVec 7) : EncodeMatchesRow.Statement (.ddramSet addr) := by
  have h : ∀ n : BitVec 7, ((ddramSetByte n).toNat &&& 0x80) = 0x80 := by decide
  exact h addr

theorem EncodeMatchesRow.dataByte (v : Byte) : EncodeMatchesRow.Statement (.dataByte v) := by
  simp [EncodeMatchesRow.Statement, rowMeets, encode]

theorem EncodeMatchesRow.syncNibble (n : Nibble) : EncodeMatchesRow.Statement (.syncNibble n) := by
  have h : ∀ n : BitVec 4, (n == 0x3#4 || n == 0x2#4) = true → n.toNat &&& 0xF = 0x3 ∨ n.toNat &&& 0xF = 0x2 := by decide
  exact h n

end Sys2Proof.Laws
end

