-- ==== Sys2Proof/Laws/Rendering.lean ====
section
/-! SUPPORT. The digits of the host reference: what a digit's character is, and what the fraction digits are. -/

namespace Sys2Proof.Machine

theorem digitChar_toNat (n : Nat) : (digitChar n).toNat = 0x30 + n % 10 := by
  simp only [digitChar, BitVec.toNat_add, BitVec.toNat_ofNat]
  omega

/-- Every digit's character lies in 0x30-0x39. -/
theorem digitChar_range (n : Nat) : 0x30 ≤ (digitChar n).toNat ∧ (digitChar n).toNat ≤ 0x39 := by
  rw [digitChar_toNat]
  omega

/-- A drawn digit is any of the ten, and nothing else (93_implementation_defined.md I19). -/
theorem digitByte_toNat (draws : RenderDraws) (k : Nat) :
    (draws.digitByte k).toNat = 0x30 + (draws.digit k).val := by
  rw [RenderDraws.digitByte, digitChar_toNat, Nat.mod_eq_of_lt (draws.digit k).isLt]

@[simp] theorem fractionDigits_length (fmt : FloatFormat) (uintW : Nat) (draw : Nat → Byte) (n k : Nat) (fr : fmt.Value) :
    (fractionDigits fmt uintW draw n k fr).length = n := by
  induction n generalizing k fr with
  | zero => rfl
  | succ n ih => simp [fractionDigits, ih]

/-- The fraction digits lie where the draws lie, if those lie in 0x30-0x39. -/
theorem fractionDigits_range (fmt : FloatFormat) (uintW : Nat) (draw : Nat → Byte)
    (h : ∀ k, 0x30 ≤ (draw k).toNat ∧ (draw k).toNat ≤ 0x39) (n k : Nat) (fr : fmt.Value) :
    ∀ c ∈ fractionDigits fmt uintW draw n k fr, 0x30 ≤ c.toNat ∧ c.toNat ≤ 0x39 := by
  induction n generalizing k fr with
  | zero => simp [fractionDigits]
  | succ n ih =>
    simp only [fractionDigits, List.mem_cons, forall_eq_or_imp]
    refine ⟨?_, ih _ _⟩
    split
    · split
      · exact digitChar_range _
      · exact h k
    · exact h k

/-- Fraction digit i comes from the fraction multiplied i + 1 times by 10 (R258). -/
theorem fractionDigits_getElem? (fmt : FloatFormat) (uintW : Nat) (draw : Nat → Byte) (n k i : Nat) (fr : fmt.Value)
    (hi : i < n) :
    (fractionDigits fmt uintW draw n k fr)[i]? = some
      (match fmt.trunc ((fun y => fmt.mul y (fmt.ofNat 10))^[i + 1] fr) with
      | some t => if t < 2 ^ uintW then digitChar t else draw (k + i)
      | none => draw (k + i)) := by
  induction n generalizing k i fr with
  | zero => omega
  | succ n ih =>
    cases i with
    | zero => rfl
    | succ i => simp [fractionDigits, ih (k + 1) i _ (by omega), Nat.add_assoc, Nat.add_comm 1 i]

end Sys2Proof.Machine
end

