-- ==== Sys2Proof/Tests/Slice0.lean ====
section
/-! SUPPORT. Tests. Expected results are those of spec/95_test_vectors.md (the vector is named), or words written out from
the tables of spec/30_encoding.md. A witness_ theorem shows a state and operands that meet the hypotheses of the
statement it names. -/

namespace Sys2Proof.Tests

open Sys2Proof Sys2Proof.Machine

/-! ## Well-formedness -/

theorem test_wellformed_refuses_other_nibbles :
    (Instr.syncNibble 0x5#4).wellFormed = false ∧ (Instr.syncNibble 0x0#4).wellFormed = false ∧
      (Instr.syncNibble 0x4#4).wellFormed = false ∧ decode (.nibble 0x5#4) = none := by decide

theorem test_wellformed_accepts :
    (Instr.syncNibble 0x3#4).wellFormed = true ∧ (Instr.syncNibble 0x2#4).wellFormed = true ∧
      (Instr.setcur 0xFF#8 0x00#8 0#64).wellFormed = true := by decide

/-! ## Decoding: words from R102, R104 and R107 -/

/-- Bits [23:16] `b`, [15:8] `a`, [7:0] `op` (R100). -/
theorem test_decode_format_n :
    decode (.request 0b111111110000000100000001#24 9#64) = some (.init ⟨0x01#8, 0xFF#8, 9#64⟩) ∧
    decode (.request 0b000000000000000000000010#24 0#64) = some (.clear noFields) ∧
    decode (.request 0b000000000000000000000011#24 0#64) = some (.home noFields) ∧
    decode (.request 0b000000000000000000000100#24 0#64) = some (.shl noFields) ∧
    decode (.request 0b000000000000000000000101#24 0#64) = some (.shr noFields) ∧
    decode (.request 0b000000000000000000000110#24 0#64) = some (.curinc noFields) ∧
    decode (.request 0b000000000000000000000111#24 0#64) = some (.curdec noFields) := by decide

theorem test_decode_operands :
    decode (.request 0b000101000000001100001000#24 0#64) = some (.setcur 3#8 20#8 0#64) ∧
    decode (.request 0b000000000100000100001001#24 0#64) = some (.wrchar 0x41#8 0#8 0#64) ∧
    decode (.request 0b000000000000001000001010#24 0x0000040E1F1F0A00#64) =
      some (.addchar 2#8 0x0000040E1F1F0A00#64 0#8) := by decide

/-- `op[7:4] = 1`, `op[3:1]` the selector, `op[0]` the value (R105). -/
theorem test_decode_toggles :
    decode (.request 0b000000000000000000010000#24 0#64) = some (.dispoff noFields) ∧
    decode (.request 0b000000000000000000010001#24 0#64) = some (.dispon noFields) ∧
    decode (.request 0b000000000000000000010010#24 0#64) = some (.uloff noFields) ∧
    decode (.request 0b000000000000000000010011#24 0#64) = some (.ulon noFields) ∧
    decode (.request 0b000000000000000000010100#24 0#64) = some (.blinkoff noFields) ∧
    decode (.request 0b000000000000000000010101#24 0#64) = some (.blinkon noFields) ∧
    decode (.request 0b000000000000000000010110#24 0#64) = some (.entdec noFields) ∧
    decode (.request 0b000000000000000000010111#24 0#64) = some (.entinc noFields) ∧
    decode (.request 0b000000000000000000011000#24 0#64) = some (.entshoff noFields) ∧
    decode (.request 0b000000000000000000011001#24 0#64) = some (.entshon noFields) := by decide

theorem test_decode_commands :
    decode (.command 0b00101000#8) = some .functionSet ∧
    decode (.command 0b00001101#8) = some (.displayControl true false true) ∧
    decode (.command 0b00000110#8) = some (.entryMode true false) ∧
    decode (.command 0b00000101#8) = some (.entryMode false true) ∧
    decode (.command 0b00000001#8) = some .clearDisplay ∧
    decode (.command 0b00000010#8) = some .returnHome ∧
    decode (.command 0b00011000#8) = some .shiftLeft ∧
    decode (.command 0b00011100#8) = some .shiftRight ∧
    decode (.command 0b00010100#8) = some .cursorInc ∧
    decode (.command 0b00010000#8) = some .cursorDec ∧
    decode (.command 0b01010000#8) = some (.cgramSet 0x10#6) ∧
    decode (.command 0b11010100#8) = some (.ddramSet 0x54#7) := by decide

theorem test_decode_data_and_nibble :
    decode (.data 0b10100101#8) = some (.dataByte 0xA5#8) ∧ decode (.nibble 0b0011#4) = some (.syncNibble 3#4) ∧
    decode (.nibble 0b0010#4) = some (.syncNibble 2#4) := by decide

/-- R106 and the bytes of no row of R107. -/
theorem test_decode_refuses :
    decode (.request 0x000000#24 0#64) = none ∧ decode (.request 0x00000B#24 0#64) = none ∧
    decode (.request 0x00000F#24 0#64) = none ∧ decode (.request 0x00001A#24 0#64) = none ∧
    decode (.request 0x0000FF#24 0#64) = none ∧ decode (.command 0x00#8) = none ∧ decode (.command 0x03#8) = none ∧
    decode (.command 0x20#8) = none ∧ decode (.command 0x38#8) = none := by decide

theorem test_decode_table_words :
    decodeTableWord 24 0x010308 = some (.setcur 3#8 1#8 0#64) ∧
    decodeTableWord 88 (0x0000040E1F1F0A0000020A) = some (.addchar 2#8 0x0000040E1F1F0A00#64 0#8) ∧
    decodeTableWord 8 0x28 = some .functionSet ∧ decodeTableWord 8 0x3A = some (.dataByte 0x3A#8) := by decide

/-! ## States -/

/-- The state Ready of 95_test_vectors.md, its trace left empty. -/
def ready : State := { State.reset with fsm := .ready, d := 0x6#4, oe := true }

/-- Ready, with inputs to come. -/
def readyWith (inputs : List Input) : State := { ready with inputs := inputs }

/-- A block in a micro-program of two micro-ops, at the first. -/
def busyWith (inputs : List Input) : State :=
  { ready with useq := [.en false, .d 0x1#4], busy := true, inputs := inputs }

/-- Ready, after the two bytes that INIT sends of the shadows' classes. -/
def readyShadowed : State := { ready with trace := eventsOf Config.sim (wcmd 0x0C#8 ++ wcmd 0x06#8) }

/-! ## The bus (L2-A) -/

/-- L2-A1. -/
theorem test_wrchar_events :
    eventsOf Config.sim (wrcharProgram 0x41#8) =
      [.rs true, .d 0x4#4, .wait 1, .en true, .wait 60, .en false, .wait 1,
        .d 0x1#4, .wait 1, .en true, .wait 60, .en false, .wait 1, .wait 60] := by decide

/-- L2-A2. -/
theorem test_long_and_short_commands :
    (wcmd 0x01#8).length = 15 ∧ waitSum (eventsOf Config.sim (wcmd 0x01#8)) = 2484 ∧ (wcmd 0x04#8).length = 14 ∧
      waitSum (eventsOf Config.sim (wcmd 0x04#8)) = 184 ∧ longCommand 0x03#8 = true := by decide

/-- L2-A3: D7 is bit 3 of the nibble. -/
theorem test_nibble_mapping :
    hiNibble 0xA5#8 = 0xA#4 ∧ loNibble 0xA5#8 = 0x5#4 ∧ (hiNibble 0xA5#8).getLsbD 3 = true ∧
      (loNibble 0xA5#8).getLsbD 3 = false := by decide

/-! ## INIT (L2-B) -/

/-- L2-B1. -/
theorem test_init_bytes :
    initProgram.length = 107 ∧ bytes (eventsOf Config.sim initProgram) =
      [.cfg, .nib 3#4, .nib 3#4, .nib 3#4, .nib 2#4, .cmd 0x28#8, .cmd 0x0C#8, .cmd 0x06#8, .cmd 0x01#8, .cmd 0x06#8] := by
  decide

/-- L2-B1, L2-B2: least durations; and micro-ops 32, 47 and 49. -/
theorem test_init_durations :
    waitSum (eventsOf Config.sim initProgram) = 47868 ∧ waitSum (eventsOf Config.variantB initProgram) = 46788 ∧
      initProgram[32]? = some (.fsm .functionSet) ∧ initProgram[47]? = some (.fsm .ready) ∧
      initProgram[49]? = some (.ldem 0x06#8) := by decide

/-! ## Fixed commands (L2-C) -/

theorem test_clear_resends_entry_mode :
    bytes (eventsOf Config.sim (clearProgram 0x07#8)) = [.cmd 0x01#8, .cmd 0x07#8] ∧
      waitSum (eventsOf Config.sim (clearProgram 0x06#8)) = 2668 ∧ (clearProgram 0x06#8).length = 29 := by decide

theorem test_home_shifts_and_cursor_moves :
    bytes (eventsOf Config.sim (homeProgram ++ shlProgram ++ shrProgram ++ curincProgram ++ curdecProgram)) =
      [.cmd 0x02#8, .cmd 0x18#8, .cmd 0x1C#8, .cmd 0x14#8, .cmd 0x10#8] ∧
      waitSum (eventsOf Config.sim homeProgram) = 2484 := by decide

/-! ## Addressing (L2-D) -/

/-- L2-D1. -/
theorem test_setcur_bytes :
    ([(1, 1), (1, 20), (2, 20), (3, 20), (4, 20), (1, 21), (1, 0), (4, 0), (1, 129), (2, 73), (1, 255)].map fun p =>
        bytes (eventsOf Config.sim (setcurProgram Config.sim (BitVec.ofNat 8 p.1) (BitVec.ofNat 8 p.2)))) =
      [[.cmd 0x80#8], [.cmd 0x93#8], [.cmd 0xD3#8], [.cmd 0xA7#8], [.cmd 0xE7#8], [.cmd 0x94#8], [.cmd 0x7F#8],
        [.cmd 0xD3#8], [.cmd 0x00#8], [.cmd 0x08#8], [.cmd 0x7E#8]] := by decide

/-- L2-D1, L2-D2: a wrapped clear has the long wait; an invalid row completes at once and leaves BUSY at 0. -/
theorem test_setcur_corners :
    waitSum (eventsOf Config.sim (setcurProgram Config.sim 1#8 130#8)) = 2484 ∧
      (setcurUnder Config.sim 5#8 1#8 0#64 ready).busy = false ∧
      statusWord (setcurUnder Config.sim 5#8 1#8 0#64 ready) = 0x180B0C06#32 := by decide

/-- L2-D4. -/
theorem test_addchar_heart :
    bytes (eventsOf Config.sim (addcharProgram 2#8 0x0000040E1F1F0A00#64)) =
      [.cmd 0x50#8, .dat 0x00#8, .dat 0x0A#8, .dat 0x1F#8, .dat 0x1F#8, .dat 0x0E#8, .dat 0x04#8, .dat 0x00#8, .dat 0x00#8,
        .cmd 0x80#8] := by decide

/-- L2-D3. -/
theorem test_addchar_slots :
    [0, 7, 8, 23, 24, 25, 31, 32, 255].map (fun n => cgramCmd (BitVec.ofNat 8 n)) =
      [0x40#8, 0x78#8, 0x80#8, 0xF8#8, 0x00#8, 0x08#8, 0x38#8, 0x40#8, 0x38#8] := by decide

/-! ## Toggles (L2-E) -/

/-- L2-E1: opcodes 0x10 to 0x19 from the defaults. -/
theorem test_toggle_bytes :
    [0x10, 0x11, 0x12, 0x13, 0x14, 0x15, 0x16, 0x17, 0x18, 0x19].map (fun n =>
        bytes (eventsOf Config.sim (toggleProgram (BitVec.ofNat 8 n) 0x0C#8 0x06#8))) =
      [[.cmd 0x08#8], [.cmd 0x0C#8], [.cmd 0x0C#8], [.cmd 0x0E#8], [.cmd 0x0C#8], [.cmd 0x0D#8], [.cmd 0x04#8],
        [.cmd 0x06#8], [.cmd 0x06#8], [.cmd 0x07#8]] := by decide

/-- L2-E2: the meanings themselves, from other shadow values. -/
theorem test_toggle_loads :
    execUloff noFields { ready with dc := 0x0E#8 } =
      .next (acceptedState ⟨0x12#8, 0#8, 0#8, 0#64⟩ (.lddc 0x0C#8 :: wcmd 0x0C#8) { ready with dc := 0x0E#8 }) ∧
    execEntinc noFields { ready with em := 0x04#8 } =
      .next (acceptedState ⟨0x17#8, 0#8, 0#8, 0#64⟩ (.ldem 0x06#8 :: wcmd 0x06#8) { ready with em := 0x04#8 }) :=
  ⟨rfl, rfl⟩

/-! ## Errors, status and reset (L2-F, R120) -/

theorem test_errors_before_init :
    statusWord State.reset = 0x00000C06#32 ∧ statusWord (raise .nr State.reset) = 0x00200C06#32 ∧
      statusWord (issueReserved State.reset) = 0x00100C06#32 ∧
      statusWord (issueReserved { State.reset with busy := true }) = 0x00440C06#32 := by decide

theorem test_bounds_checks :
    statusWord (setcurUnder { boundsCheck := true } 1#8 0#8 0#64 ready) = 0x188B0C06#32 ∧
      statusWord (setcurUnder { boundsCheck := true } 1#8 21#8 0#64 ready) = 0x188B0C06#32 ∧
      statusWord (setcurUnder { boundsCheck := true } 5#8 1#8 0#64 ready) = 0x188B0C06#32 ∧
      (setcurUnder { boundsCheck := true } 4#8 20#8 0#64 ready).busy = true ∧
      (addcharUnder { boundsCheck := true } 8#8 0#64 0#8 ready).err.arg = true ∧
      (addcharUnder { boundsCheck := true } 7#8 0#64 0#8 ready).busy = true := by decide

/-- P5: a request before INIT is dropped with NR, one while busy with OVR; RST clears both (R310). -/
theorem test_step_drops_and_resets :
    step { State.reset with inputs := [.word (.request 0x004109#24 0#64)] } = .next (raise .nr State.reset) ∧
    step (busyWith [.word (.request 0x00000B#24 0#64)]) = .next (raise .ovr (busyWith [])) ∧
    step { busyWith [.reset] with err := ⟨true, true, true, true⟩ } = .next State.reset :=
  ⟨rfl, rfl, rfl⟩

/-! ## Bus rows -/

/-- R140-R145, R150: RS, D and the shadows after a transfer. -/
theorem test_bus_rows :
    (applyAll Config.sim (wdata 0x41#8) ready).rs = true ∧ (applyAll Config.sim (wdata 0x41#8) ready).d = 0x1#4 ∧
      (applyAll Config.sim (wcmd 0x0A#8) ready).dc = 0x0C#8 ∧
      (applyAll Config.sim (nibw 0x3#4) { ready with rs := true }).rs = true := by decide

/-! ## The request syntax and the host reference (L1, L2-G) -/

theorem test_assembler :
    assembleLine "SETCUR 3, 1 ; home".toList = some [.setcur 3#8 1#8 0#64] ∧
      assembleLine "WRCHAR 'A'".toList = some [.wrchar 0x41#8 0#8 0#64] ∧
      assembleLine "WRCHAR 256".toList = none ∧ assembleLine "SETUL 1".toList = some [.ulon noFields] ∧
      wordText (.setcur 3#8 1#8 0#64) = "REQ=0x010308".toList := by decide

theorem test_wrint :
    wrInt (-42 : BitVec 16) 5#8 = [0x20#8, 0x20#8, 0x20#8, 0x34#8, 0x32#8].map putChar ∧
      wrInt (-32768 : BitVec 16) 6#8 = [0x20#8, 0x33#8, 0x32#8, 0x37#8, 0x36#8, 0x38#8].map putChar ∧
      wrInt (0 : BitVec 16) 0#8 = [putChar 0x30#8] := by decide

/-- 0x4048F5C3 is 3.14, 0x40A00000 is 5.0 and 0x3DCCCCCD is 0.1. -/
theorem test_wrfloat :
    wrFloat FloatFormat.binary32 32 ⟨fun _ => 0, []⟩ (binary32OfBits 0x4048F5C3#32) 6#8 2#8 =
        [0x20#8, 0x20#8, 0x33#8, 0x2E#8, 0x31#8, 0x34#8].map putChar ∧
      wrFloat FloatFormat.binary32 32 ⟨fun _ => 0, []⟩ (binary32OfBits 0x40A00000#32) 1#8 3#8 =
        [0x35#8, 0x2E#8, 0x30#8, 0x30#8, 0x30#8].map putChar ∧
      wrFloat FloatFormat.binary32 32 ⟨fun _ => 0, []⟩ (binary32OfBits 0x3DCCCCCD#32) 0#8 3#8 =
        [0x30#8, 0x2E#8, 0x31#8, 0x30#8, 0x30#8].map putChar := by decide

/-- `WRFLOAT 3.14, 0, 8` by the literal reading of R258. -/
theorem test_wrfloat_literal_reading :
    wrFloat FloatFormat.binary32 32 ⟨fun _ => 0, []⟩ (binary32OfBits 0x4048F5C3#32) 0#8 8#8 =
      [0x33#8, 0x2E#8, 0x31#8, 0x34#8, 0x30#8, 0x30#8, 0x30#8, 0x30#8, 0x31#8, 0x31#8].map putChar := by decide

/-- `WRFLOAT 3.14, 0, 12`: digits 11 and 12 are drawn, here 7 and 9, and no other is. -/
theorem test_wrfloat_draws :
    wrFloat FloatFormat.binary32 32 ⟨fun k => if k = 10 then 7 else 9, []⟩ (binary32OfBits 0x4048F5C3#32) 0#8 12#8 =
      wrFloat FloatFormat.binary32 32 ⟨fun _ => 0, []⟩ (binary32OfBits 0x4048F5C3#32) 0#8 10#8
        ++ [putChar 0x37#8, putChar 0x39#8] := by decide

/-! ## Witnesses: each meets all hypotheses of one clause of the statement it names -/

theorem witness_DecodeEncodeRoundTrip :
    (Instr.syncNibble 0x2#4).wellFormed = true ∧ (Instr.ddramSet 0x7F#7).wellFormed = true := by decide

theorem witness_EncodeDecodeRoundTrip :
    decode (.command 0x0F#8) = some (.displayControl true true true) ∧ decode (.nibble 0x3#4) = some (.syncNibble 3#4) := by
  decide

theorem witness_ReservedOpcodesAreIllegal :
    (readyWith [.word (.request 0xFFFF1A#24 5#64)]).busy = false ∧ decode (.request 0xFFFF1A#24 5#64) = none ∧
      decode (.request 0x00000F#24 0#64) = none ∧ (decode (.request 0x00000A#24 0#64)).isSome = true ∧
      (decode (.request 0x000010#24 0#64)).isSome = true ∧ (decode (.request 0x000019#24 0#64)).isSome = true := by decide

theorem witness_IgnoredFieldsReachOnlyTheLatch :
    Instr.clear ∈ [Instr.init, Instr.clear, Instr.home] := by simp

theorem witness_AcceptanceFollowsTheFourChecks :
    (readyWith [.word (.request 0x000002#24 0#64), .poll]).inputs = .word (.request 0x000002#24 0#64) :: [.poll] := by
  decide

theorem witness_RequestIsDroppedOrWhole :
    isRequest (.setcur 0#8 0#8 0#64) = true ∧ isRequest (.entshon noFields) = true ∧ isRequest .functionSet = false := by
  decide

theorem witness_StepRunsTheDecodedInstruction :
    decode (.data 0x41#8) = some (.dataByte 0x41#8) ∧ isRequest (.dataByte 0x41#8) = false ∧
      (readyWith [.word (.data 0x41#8)]).busy = false ∧ (busyWith [.word (.data 0x41#8)]).busy = true ∧
      decode (.request 0x000003#24 0#64) = some (.home noFields) ∧ isRequest (.home noFields) = true := by decide

theorem witness_SequencerRunsOneMicroOp :
    ready.inputs = [] ∧ ready.busy = false ∧ (busyWith []).inputs = [] ∧ (busyWith []).busy = true ∧
      (busyWith [.sequencer, .poll]).inputs = .sequencer :: [.poll] ∧ (readyWith [.sequencer]).inputs = .sequencer :: [] ∧
      (busyWith []).useq[(busyWith []).upc.toNat]? = some (.en false) ∧
      (busyWith []).useq[(({ busyWith [] with upc := 1#8 } : State)).upc.toNat]? = some (.d 0x1#4) := by decide

theorem witness_StatusReadsChangeNothing :
    (readyWith [.readStatus]).inputs = [.readStatus] ∧ (readyWith [.poll]).busy = false ∧
      (readyWith [.poll]).inputs = [.poll] ∧ (busyWith [.poll]).busy = true ∧ (busyWith [.poll]).inputs = [.poll] := by decide

theorem witness_InitAccepted : State.reset.busy = false ∧ ready.busy = false := by decide

theorem witness_InitRunsToReady : State.reset.busy = false ∧ ready.busy = false := by decide

theorem witness_ClearRuns : IdleReady ready ∧ EmOk ready.em ∧ EmOk 0x07#8 := by decide

theorem witness_FixedCommandsRun :
    (Instr.curdec, 0x07#8, 0x10#8, 14) ∈ [(Instr.shr, 0x05#8, 0x1C#8, 14), (Instr.curdec, 0x07#8, 0x10#8, 14)] ∧
      IdleReady ready := ⟨by simp, by decide⟩

theorem witness_SetcurRuns :
    IdleReady ready ∧ (4#8, 0xD3#8) ∈ [(1#8, 0x7F#8), (2#8, 0xBF#8), (3#8, 0x93#8), (4#8, 0xD3#8)] ∧
      1 ≤ (1#8 : Byte).toNat ∧ (20#8 : Byte).toNat ≤ 20 := by decide

/-- Each clause, at a row and a column just outside their ranges. -/
theorem witness_SetcurOutOfRange :
    IdleReady ready ∧ ¬ (1 ≤ (1#8 : Byte).toNat ∧ (1#8 : Byte).toNat ≤ 4 ∧ 1 ≤ (21#8 : Byte).toNat ∧ (21#8 : Byte).toNat ≤ 20) ∧
      ¬ (1 ≤ (5#8 : Byte).toNat ∧ (5#8 : Byte).toNat ≤ 4) ∧ ({ boundsCheck := true } : Config).boundsCheck = true ∧
      Config.sim.boundsCheck = false ∧ Config.sim.rowBaseInvalid 5#8 = none ∧
      ({ rowBaseInvalid := fun _ => some 0x80#8 } : Config).rowBaseInvalid 5#8 = some 0x80#8 := by decide

theorem witness_AddcharRuns : IdleReady ready ∧ (7#8 : Byte).toNat ≤ 7 ∧ (0#8 : Byte).toNat ≤ 7 := by decide

theorem witness_AddcharOutOfRange :
    IdleReady ready ∧ 7 < (8#8 : Byte).toNat ∧ ({ boundsCheck := true } : Config).boundsCheck = true ∧
      Config.sim.boundsCheck = false := by decide

theorem witness_WrcharRuns : IdleReady ready := by decide

theorem witness_DisplayTogglesRun :
    (Instr.blinkon, 0x15#8, 0xFF#8, 0x01#8) ∈ [(Instr.ulon, 0x13#8, 0xFF#8, 0x02#8), (Instr.blinkon, 0x15#8, 0xFF#8, 0x01#8)] ∧
      IdleReady ready ∧ DcOk ready.dc := ⟨by simp, by decide, by decide⟩

theorem witness_EntryTogglesRun :
    (Instr.entdec, 0x16#8, 0xFD#8, 0x00#8) ∈ [(Instr.entdec, 0x16#8, 0xFD#8, 0x00#8), (Instr.entinc, 0x17#8, 0xFF#8, 0x02#8)] ∧
      IdleReady ready ∧ EmOk ready.em := ⟨by simp, by decide, by decide⟩

theorem witness_ToggleOpcodeStructure :
    0x10 ≤ (0x10#8 : Byte).toNat ∧ (0x19#8 : Byte).toNat ≤ 0x19 ∧ 4 = ((0x19#8 : Byte).toNat - 0x10) / 2 ∧
      2 = ((0x15#8 : Byte).toNat - 0x10) / 2 ∧ IdleReady ready := by decide

theorem witness_ToggleLaws :
    IdleReady ready ∧ DcOk ready.dc ∧
      ∃ t t', runRequest (.dispoff noFields) 15 ready = .next t ∧ runRequest (.dispon noFields) 15 t = .next t' :=
  ⟨by decide, by decide, _, _, rfl, rfl⟩

theorem witness_CommandRowsDriveTheBus :
    (Instr.cursorDec, 0x10#8) ∈ [(Instr.cursorInc, 0x14#8), (Instr.cursorDec, 0x10#8)] ∧
      (∃ addr : BitVec 7, Instr.ddramSet 0x7F#7 = .ddramSet addr ∧ 0xFF#8 = 0x80#8 + addr.zeroExtend 8) ∧
      (∃ addr : BitVec 6, Instr.cgramSet 0x3F#6 = .cgramSet addr ∧ 0x7F#8 = 0x40#8 + addr.zeroExtend 8) ∧
      (∃ d c b, Instr.displayControl true true true = .displayControl d c b) ∧
      (∃ id sh, Instr.entryMode false false = .entryMode id sh) :=
  ⟨by decide, ⟨0x7F#7, by decide⟩, ⟨0x3F#6, by decide⟩, ⟨_, _, _, rfl⟩, ⟨_, _, rfl⟩⟩

theorem witness_BusyRequestIsDroppedWithOvr :
    (busyWith [.word (.request 0x0000FF#24 0#64)]).inputs = [.word (.request 0x0000FF#24 0#64)] ∧
      (busyWith [.word (.request 0x0000FF#24 0#64)]).busy = true := by decide

theorem witness_NotReadyRequestIsDroppedWithNr :
    isRequest (.wrchar 0x41#8 0#8 0#64) = true ∧ (∀ u, Instr.wrchar 0x41#8 0#8 0#64 ≠ .init u) ∧
      State.reset.busy = false ∧ State.reset.fsm ≠ .ready ∧ Inv State.reset :=
  ⟨by decide, by simp, by decide, by decide, by decide⟩

theorem witness_ErrorsAreSticky :
    step { ready with err := ⟨true, false, false, false⟩ } = .next { ready with err := ⟨true, false, false, false⟩ } ∧
      ready.inputs.head? ≠ some .reset ∧ hasError .ill ⟨true, false, false, false⟩ = true :=
  ⟨rfl, by decide, by decide⟩

theorem witness_StepKeepsInvariant : Inv (busyWith []) ∧ ∃ t, step (busyWith []) = .next t := ⟨by decide, _, rfl⟩

theorem witness_InvariantRulesOutFaults :
    Inv ready ∧ step (readyWith [.word (.command 0x03#8)]) = .refused .noBusRow := ⟨by decide, rfl⟩

theorem witness_BusyBlockRunsToCompletion :
    SequencerOk (busyWith []) ∧ (busyWith []).busy = true ∧ (busyWith []).inputs = [] := by decide

theorem witness_RequestIsItsTransfers :
    isRequest (.addchar 7#8 0#64 0#8) = true ∧ (∀ u, Instr.addchar 7#8 0#64 0#8 ≠ .init u) ∧
      inRange (.addchar 7#8 0#64 0#8) = true ∧ inRange (.setcur 4#8 20#8 0#64) = true ∧
      inRange (.setcur 4#8 21#8 0#64) = false ∧ IdleReady ready ∧ DcOk ready.dc ∧ EmOk ready.em :=
  ⟨by decide, by simp, by decide, by decide, by decide, by decide, by decide, by decide⟩

theorem witness_RequestBytesOnTheBus :
    isRequest (.init noFields) = true ∧ inRange (.init noFields) = true ∧ State.reset.busy = false ∧
      DcOk State.reset.dc ∧ EmOk State.reset.em ∧ betweenBytes State.reset.trace = true ∧
      IdleReady readyShadowed ∧ betweenBytes readyShadowed.trace = true := by decide

theorem witness_InitEstablishesShadows : State.reset.busy = false := by decide

theorem witness_InRangeRequestKeepsShadows :
    isRequest (.clear noFields) = true ∧ inRange (.clear noFields) = true ∧ IdleReady readyShadowed ∧
      DcOk readyShadowed.dc ∧ EmOk readyShadowed.em ∧ ShadowsMatch readyShadowed := by decide

/-- A block at INIT's FSM(2): the step changes the initialization state. -/
theorem witness_OnlyInitAndResetChangeFsm :
    step { busyWith [] with fsm := .resetSequencing, useq := [.fsm .functionSet, .en false] } =
      .next { busyWith [] with fsm := .functionSet, useq := [.fsm .functionSet, .en false], upc := 1#8 } ∧
      (0x02#8 : Byte) ≠ 0x01#8 := ⟨rfl, by decide⟩

theorem witness_OnlyResetReleasesTheLines :
    step (readyWith [.reset]) = .next State.reset ∧ (readyWith [.reset]).oe = true ∧ State.reset.oe = false :=
  ⟨rfl, by decide, by decide⟩

theorem witness_OnlyLoadsAndResetChangeShadows :
    step { busyWith [] with useq := [.lddc 0x08#8, .en false] } =
      .next { busyWith [] with useq := [.lddc 0x08#8, .en false], dc := 0x08#8, upc := 1#8 } ∧
    step { busyWith [] with useq := [.ldem 0x04#8, .en false] } =
      .next { busyWith [] with useq := [.ldem 0x04#8, .en false], em := 0x04#8, upc := 1#8 } ∧
      .lddc 0x08#8 ∈ expand Config.sim ⟨0x10#8, 0#8, 0#8, 0#64⟩ 0x0C#8 0x06#8 ∧
      .ldem 0x07#8 ∈ expand Config.sim ⟨0x19#8, 0#8, 0#8, 0#64⟩ 0x0C#8 0x06#8 := ⟨rfl, rfl, by decide, by decide⟩

theorem witness_TraceOnlyGrows :
    (∃ t, step (busyWith []) = .next t) ∧ (busyWith []).inputs.head? ≠ some .reset := ⟨⟨_, rfl⟩, by decide⟩

theorem witness_LatchIsNeverRead : ∃ t, step (busyWith []) = .next t := ⟨_, rfl⟩

theorem witness_ResetSetsEveryField : (busyWith [.reset]).inputs = .reset :: [] := by decide

theorem witness_DdramTranslator :
    (0x04#8, 0xC0 + 19) ∈ [(0x03#8, 0x80 + 19), ((0x04#8 : Byte), 0xC0 + 19)] := by decide

/-- The slots where the clauses meet. -/
theorem witness_CgramTranslator :
    (7#8 : Byte).toNat ≤ 7 ∧ 8 ≤ (8#8 : Byte).toNat ∧ (23#8 : Byte).toNat ≤ 23 ∧ 24 ≤ (24#8 : Byte).toNat ∧
      (31#8 : Byte).toNat ≤ 31 := by decide

theorem witness_DisplayPositions :
    rowValid 4#8 = true ∧ colValid 20#8 = true ∧ rowBase 4#8 = some 0xD3#8 ∧ ddramAddress 4 20 = some 0x67 := by decide

theorem witness_MinimumDurations :
    EmOk 0x04#8 ∧ EmOk 0x07#8 ∧ DcOk 0x08#8 ∧ DcOk 0x0F#8 ∧ cursorBase Config.sim 1#8 = some 0x7F#8 ∧
      (1 ≤ (wrapAdd 0x82#8 0x7F#8).toNat ∧ (wrapAdd 0x84#8 0x7F#8).toNat ≤ 3) ∧
      cursorBase Config.sim 0#8 = none ∧ cursorBase Config.sim 5#8 = none ∧
      shlProgram ∈ [shlProgram, shrProgram, curincProgram, curdecProgram] := by decide

/-- A timing that keeps every wait: one second for each event. -/
theorem admissible_seconds (es : List Event)
    (h : ∀ j < es.length, ∀ i < j, waitBetween es i j ≤ 1000000 * (j - i)) :
    Admissible (fun i => 1000000 * (i : ℝ)) es := by
  intro i j hij hj
  have hr : ((waitBetween es i j : Nat) : ℝ) ≤ ((1000000 * (j - i) : Nat) : ℝ) := by exact_mod_cast h j hj i hij
  rw [Nat.cast_mul, Nat.cast_sub hij.le] at hr
  calc _ ≤ _ := hr
    _ = _ := by push_cast; ring

theorem witness_EnableIsHighLongEnough :
    Admissible (fun i => 1000000 * (i : ℝ)) ([] ++ eventsOf Config.sim (xfer 0x41#8 true) ++ []) ∧
      ([] ++ eventsOf Config.sim (xfer 0x41#8 true) ++ [])[3]? = some (.en true) ∧
      ([] ++ eventsOf Config.sim (xfer 0x41#8 true) ++ [])[9]? = some (.en true) ∧
      Admissible (fun i => 1000000 * (i : ℝ)) ([] ++ eventsOf Config.sim (nibw 0x3#4) ++ []) ∧
      ([] ++ eventsOf Config.sim (nibw 0x3#4) ++ [])[2]? = some (.en true) :=
  ⟨admissible_seconds _ (by decide), by decide, by decide, admissible_seconds _ (by decide), by decide⟩

theorem witness_GlyphUploadReachesCgram :
    ({ Lcd.unknown with fourBit := true, em := some 0x06#8 } : Lcd).fourBit = true ∧ (0x06#8 : Byte).getLsbD 1 = true ∧
      (7#8 : Byte).toNat ≤ 7 := by decide

/-- ENTDEC; ADDCHAR 0: AC leaves the known addresses, in CGRAM; DDRAM keeps what is known of it (R84). -/
theorem test_glyph_upload_downwards :
    let l : Lcd := { Lcd.unknown with fourBit := true, em := some 0x06#8, ddram := [(3, 0x41#8)] }
    let l' := ([.cmd 0x04#8, .cmd 0x40#8, .dat 0x1F#8, .dat 0x11#8] : List BusItem).foldl lcdStep l
    l'.ac = some (.cgram none) ∧ l'.cgram = [] ∧ l'.ddram = [(3, 0x41#8)] := by decide

/-- R74: INIT's nibbles keep the RAM; R82: its CLEAR does not. -/
theorem test_init_keeps_ram_until_clear :
    let l : Lcd := { Lcd.unknown with fourBit := true, ddram := [(3, 0x41#8)], cgram := [(8, 0x1F#8)] }
    let l' := ([.cfg, .nib 3#4, .nib 3#4, .nib 3#4, .nib 2#4, .cmd 0x28#8] : List BusItem).foldl lcdStep l
    l'.fourBit = true ∧ l'.ddram = [(3, 0x41#8)] ∧ l'.cgram = [(8, 0x1F#8)] ∧ (lcdStep l' (.cmd 0x01#8)).ddram = [] := by
  decide

/-- Between two requests, with the shadows as sent, and a request with operands at the end of their range to come. -/
theorem witness_StepKeepsShadowsSettled :
    Inv { readyShadowed with inputs := [.word (.request 0x140408#24 0#64)] } ∧
      ShadowsSettle { readyShadowed with inputs := [.word (.request 0x140408#24 0#64)] } ∧
      InputKeepsShadows { readyShadowed with inputs := [.word (.request 0x140408#24 0#64)] } ∧
      ∃ t, step { readyShadowed with inputs := [.word (.request 0x140408#24 0#64)] } = .next t := by
  refine ⟨by decide, fun _ => by decide, ?_, _, rfl⟩
  intro w rest i hw hd
  cases hw
  have h : decode (.request 0x140408#24 0#64) = some (.setcur 4#8 20#8 0#64) := by decide
  cases h.symm.trans hd
  exact ⟨by decide, .inl (by decide)⟩

theorem witness_GlyphUploadSparesDdram :
    ({ Lcd.unknown with fourBit := true } : Lcd).fourBit = true ∧ (7#8 : Byte).toNat ≤ 7 := by decide

theorem witness_DigitCountIsLeast : 0 < 10 ∧ 10 < 10 ^ 2 ∧ 9 < 10 ^ 1 := by decide

/-- Both clauses, at the tenth and the eleventh digit of 3.14 (the vector `WRFLOAT 3.14, 0, 12`). -/
theorem witness_WrfloatFractionDigits :
    let x := FloatFormat.binary32.sub (binary32OfBits 0x4048F5C3#32) (FloatFormat.binary32.ofNat 3)
    let step := fun y => FloatFormat.binary32.mul y (FloatFormat.binary32.ofNat 10)
    FloatFormat.binary32.trunc (FloatFormat.binary32.magnitude (binary32OfBits 0x4048F5C3#32)) = some 3 ∧ 3 < 2 ^ 32 ∧
      (∃ t, FloatFormat.binary32.trunc (step^[9 + 1] x) = some t ∧ t < 2 ^ 32) ∧
      ∃ t, FloatFormat.binary32.trunc (step^[10 + 1] x) = some t ∧ 2 ^ 32 ≤ t :=
  ⟨by decide, by decide, ⟨_, rfl, by decide⟩, ⟨_, rfl, by decide⟩⟩

theorem witness_WrfloatWidth :
    FloatFormat.binary32.trunc (FloatFormat.binary32.magnitude (binary32OfBits 0xC048F5C3#32)) = some 3 ∧ 3 < 2 ^ 32 := by
  decide

end Sys2Proof.Tests
end

section
/-! SUPPORT. Byte transfers as lists of bytes: a request other than INIT is at most one shadow load and a list of byte
transfers (R190-R195, R211, R214, R216, R230). -/

namespace Sys2Proof.Machine

/-! ## Lists of byte transfers -/

/-- The micro-ops of one byte transfer: a DATA byte for true, a COMMAND byte for false (R144, R145). -/
def sendByte (x : Bool × Byte) : List MicroOp := if x.1 then wdata x.2 else wcmd x.2

/-- The micro-ops of byte transfers one after another. -/
def sendBytes (xs : List (Bool × Byte)) : List MicroOp := xs.flatMap sendByte

@[simp] theorem sendBytes_nil : sendBytes [] = [] := rfl

theorem sendBytes_cons (x : Bool × Byte) (xs : List (Bool × Byte)) :
    sendBytes (x :: xs) = sendByte x ++ sendBytes xs := rfl

theorem sendBytes_wcmd (v : Byte) : sendBytes [(false, v)] = wcmd v := by simp [sendBytes, sendByte]

theorem sendBytes_wdata (v : Byte) : sendBytes [(true, v)] = wdata v := by simp [sendBytes, sendByte]

/-- A byte transfer drives RS, EN and the data lines, appends its events, and leaves all else alone (R143-R145). -/
theorem applyAll_sendByte (cfg : Config) (x : Bool × Byte) (s : State) :
    applyAll cfg (sendByte x) s =
      { s with rs := x.1, en := false, d := loNibble x.2, trace := s.trace ++ eventsOf cfg (sendByte x) } := by
  obtain ⟨_ | _, v⟩ := x
  · exact applyAll_wcmd cfg v s
  · exact applyAll_wdata cfg v s

/-- Byte transfers change the lines and the trace only, and an EN that was 0 is 0 again (R150). -/
theorem applyAll_sendBytes (cfg : Config) (xs : List (Bool × Byte)) (s : State) :
    ∃ rs en d, (s.en = false → en = false) ∧ applyAll cfg (sendBytes xs) s =
      { s with rs := rs, en := en, d := d, trace := s.trace ++ eventsOf cfg (sendBytes xs) } := by
  induction xs generalizing s with
  | nil => exact ⟨s.rs, s.en, s.d, id, by simp⟩
  | cons x xs ih =>
    obtain ⟨rs, en, d, hen, h⟩ := ih (applyAll cfg (sendByte x) s)
    rw [applyAll_sendByte] at hen h
    exact ⟨rs, en, d, fun _ => hen rfl, by
      rw [sendBytes_cons, applyAll_append, applyAll_sendByte, h, eventsOf_append, List.append_assoc]⟩

/-- The micro-ops a byte transfer is made of (R142-R146). -/
def isBusOp : MicroOp → Bool
  | .rs _ | .d _ | .en _ | .wait _ => true
  | .cfg | .fsm _ | .lddc _ | .ldem _ => false

theorem isBusOp_of_mem_sendBytes {op : MicroOp} {xs : List (Bool × Byte)} (h : op ∈ sendBytes xs) :
    isBusOp op = true := by
  have hc : ∀ v, ∀ op ∈ wcmd v, isBusOp op = true := by
    intro v
    cases hl : longCommand v <;> simp [wcmd, hl, xfer, nibw, pulse, isBusOp]
  have hd : ∀ v, ∀ op ∈ wdata v, isBusOp op = true := by
    intro v
    simp [wdata, xfer, nibw, pulse, isBusOp]
  obtain ⟨⟨_ | _, v⟩, -, hop⟩ := List.mem_flatMap.mp h
  · exact hc v op hop
  · exact hd v op hop

/-! ## The byte classes of the shadows -/

/-- No byte from 0x80 on is of a shadow's class, nor has the long delay (R36, R37, R144). -/
theorem highByte_classes {v : Byte} (h : 0x80 ≤ v.toNat) : ¬ DcOk v ∧ ¬ EmOk v ∧ longCommand v = false := by
  have all : ∀ v : BitVec 8, 0x80 ≤ v.toNat → ¬ DcOk v ∧ ¬ EmOk v ∧ longCommand v = false := by decide
  exact all v h

/-- A DisplayControl byte is no EntryMode byte and has the short delay only. -/
theorem dcOk_classes {v : Byte} (h : DcOk v) : ¬ EmOk v ∧ longCommand v = false := by
  have all : ∀ v : BitVec 8, DcOk v → ¬ EmOk v ∧ longCommand v = false := by decide
  exact all v h

/-- An EntryMode byte is no DisplayControl byte and has the short delay only. -/
theorem emOk_classes {v : Byte} (h : EmOk v) : ¬ DcOk v ∧ longCommand v = false := by
  have all : ∀ v : BitVec 8, EmOk v → ¬ DcOk v ∧ longCommand v = false := by decide
  exact all v h

/-- A toggle's bit of DisplayControl lies below the hardwired field (R38, R230). -/
theorem dcOk_setBit {dc : Byte} (bit : Fin 3) (v : Bool) (h : DcOk dc) : DcOk (setBit dc bit v) := by
  have all : ∀ dc : BitVec 8, DcOk dc → ∀ bit : Fin 3, ∀ v, DcOk (setBit dc bit v) := by decide
  exact all dc h bit v

/-- A toggle's bit of EntryMode lies below the hardwired field (R38, R230). -/
theorem emOk_setBit {em : Byte} (bit : Fin 2) (v : Bool) (h : EmOk em) : EmOk (setBit em bit v) := by
  have all : ∀ em : BitVec 8, EmOk em → ∀ bit : Fin 2, ∀ v, EmOk (setBit em bit v) := by decide
  exact all em h bit v

/-- SETCUR with operands in range has a base, and its byte is a DDRAM-set byte (R210). -/
theorem cursorBase_inRange (cfg : Config) {row col : Byte} (h : argsValid 0x08#8 row col = true) :
    ∃ base, cursorBase cfg row = some base ∧ 0x80 ≤ (wrapAdd col base).toNat := by
  simp only [argsValid, if_true, Bool.and_eq_true, rowValid, colValid, decide_eq_true_eq] at h
  obtain ⟨⟨hr1, hr4⟩, hc1, hc20⟩ := h
  have hrow : row = 0x01#8 ∨ row = 0x02#8 ∨ row = 0x03#8 ∨ row = 0x04#8 := by bv_omega
  rcases hrow with rfl | rfl | rfl | rfl <;> refine ⟨_, rfl, ?_⟩ <;> simp only [wrapAdd] <;> bv_omega

/-- The CGRAM-set byte never has the long delay (R213). -/
theorem longCommand_cgramCmd (slot : Byte) : longCommand (cgramCmd slot) = false := by
  have all : ∀ slot : BitVec 8, longCommand (cgramCmd slot) = false := by decide
  exact all slot

/-- The CGRAM-set byte of slots 0 to 7 is of no shadow's class (R213). -/
theorem cgramCmd_classes {slot : Byte} (h : slotValid slot = true) :
    ¬ DcOk (cgramCmd slot) ∧ ¬ EmOk (cgramCmd slot) := by
  have all : ∀ slot : BitVec 8, slotValid slot = true → ¬ DcOk (cgramCmd slot) ∧ ¬ EmOk (cgramCmd slot) := by decide
  exact all slot h

/-! ## The micro-programs -/

/-- Bytes that leave R39 as it is: none of the DisplayControl class, and of the EntryMode class only the shadow's own. -/
def KeepsShadows (em : Byte) (xs : List (Bool × Byte)) : Prop :=
  ∀ v, (false, v) ∈ xs → ¬ DcOk v ∧ (EmOk v → v = em)

/-- The bytes of ADDCHAR (R214). -/
def glyphBytes (slot : Byte) (pat : Pattern) : List (Bool × Byte) :=
  (false, cgramCmd slot) :: ((List.range 8).map fun i => (true, patternRow pat i)) ++ [(false, 0x80#8)]

theorem addcharProgram_eq (slot : Byte) (pat : Pattern) : addcharProgram slot pat = sendBytes (glyphBytes slot pat) := by
  simp [addcharProgram, glyphBytes, List.range_succ, sendBytes, sendByte]

theorem addcharProgram_length (slot : Byte) (pat : Pattern) : (addcharProgram slot pat).length = 140 := by
  have h80 : longCommand 0x80#8 = false := rfl
  simp [addcharProgram, longCommand_cgramCmd, h80]

theorem clearProgram_length {em : Byte} (h : EmOk em) : (clearProgram em).length = 29 := by
  have h01 : longCommand 0x01#8 = true := rfl
  simp [clearProgram, h01, (emOk_classes h).2]

theorem setcurProgram_length (cfg : Config) {row col : Byte} (h : argsValid 0x08#8 row col = true) :
    (setcurProgram cfg row col).length = 14 := by
  obtain ⟨base, hbase, hhigh⟩ := cursorBase_inRange cfg h
  simp [setcurProgram, hbase, (highByte_classes hhigh).2.2]

theorem dcProgram_length {v : Byte} (h : DcOk v) : (dcProgram v).length = 15 := by
  simp [dcProgram, (dcOk_classes h).2]

theorem emProgram_length {v : Byte} (h : EmOk v) : (emProgram v).length = 15 := by
  simp [emProgram, (emOk_classes h).2]

/-- An opcode 0x10 to 0x1F is 0x10 plus twice its selector, plus its value bit (R105). -/
theorem toggleOp_toNat {op : Byte} (h : op.extractLsb' 4 4 = 0x1#4) :
    op.toNat / 2 = 8 + (op.extractLsb' 1 3).toNat := by
  have all : ∀ op : BitVec 8, op.extractLsb' 4 4 = 0x1#4 → op.toNat / 2 = 8 + (op.extractLsb' 1 3).toNat := by decide
  exact all op h

/-- A micro-program of byte transfers alone, which keep R39 when the operands are in range. -/
def SendsOnly (em : Byte) (inRange : Prop) (ops : List MicroOp) : Prop :=
  ∃ xs, ops = sendBytes xs ∧ ops.length ≤ 140 ∧ (inRange → EmOk em → KeepsShadows em xs)

theorem sendsOnly_nil (em : Byte) (inRange : Prop) : SendsOnly em inRange [] :=
  ⟨[], rfl, by simp, fun _ _ v hv => by simp at hv⟩

theorem sendsOnly_wcmd (em : Byte) (inRange : Prop) (v : Byte) (hv : inRange → ¬ DcOk v ∧ ¬ EmOk v) :
    SendsOnly em inRange (wcmd v) := by
  refine ⟨[(false, v)], (sendBytes_wcmd v).symm, by rw [wcmd_length]; split <;> omega, fun hr _ w hw => ?_⟩
  obtain rfl : w = v := by simpa using hw
  exact ⟨(hv hr).1, fun he => absurd he (hv hr).2⟩

theorem sendsOnly_wdata (em : Byte) (inRange : Prop) (v : Byte) : SendsOnly em inRange (wdata v) :=
  ⟨[(true, v)], (sendBytes_wdata v).symm, by simp, fun _ _ w hw => by simp at hw⟩

/-- CLEAR sends 0x01, of no shadow's class, and the EntryMode shadow (R190). -/
theorem sendsOnly_clear (em : Byte) (inRange : Prop) : SendsOnly em inRange (clearProgram em) := by
  refine ⟨[(false, 0x01#8), (false, em)], by simp [clearProgram, sendBytes, sendByte], ?_, fun _ hem w hw => ?_⟩
  · simp only [clearProgram, List.length_append, wcmd_length]
    split <;> split <;> omega
  · obtain rfl | rfl : w = 0x01#8 ∨ w = em := by simpa using hw
    · exact ⟨by decide, fun he => absurd he (by decide)⟩
    · exact ⟨(emOk_classes hem).1, fun _ => rfl⟩

theorem sendsOnly_setcur (cfg : Config) (em row col : Byte) :
    SendsOnly em (argsValid 0x08#8 row col = true) (setcurProgram cfg row col) := by
  unfold setcurProgram
  split
  next => exact sendsOnly_nil em _
  next base hbase =>
    refine sendsOnly_wcmd em _ _ fun hr => ?_
    obtain ⟨base', hbase', hhigh⟩ := cursorBase_inRange cfg hr
    obtain rfl : base = base' := Option.some.inj (hbase.symm.trans hbase')
    exact ⟨(highByte_classes hhigh).1, (highByte_classes hhigh).2.1⟩

theorem sendsOnly_addchar (em slot b : Byte) (pat : Pattern) :
    SendsOnly em (argsValid 0x0A#8 slot b = true) (addcharProgram slot pat) := by
  refine ⟨glyphBytes slot pat, addcharProgram_eq slot pat, (addcharProgram_length slot pat).le, fun hr _ w hw => ?_⟩
  obtain rfl | rfl : w = cgramCmd slot ∨ w = 0x80#8 := by simpa [glyphBytes] using hw
  · exact ⟨(cgramCmd_classes hr).1, fun he => absurd he (cgramCmd_classes hr).2⟩
  · exact ⟨by decide, fun he => absurd he (by decide)⟩

/-- What a toggle's opcode loads: a DisplayControl value for 0x10 to 0x15, an EntryMode value for 0x16 to 0x19 (R230). -/
theorem toggleProgram_cases (op dc em : Byte) (h : op.extractLsb' 4 4 = 0x1#4) :
    (0x1A ≤ op.toNat ∧ toggleProgram op dc em = []) ∨
    (0x10 ≤ op.toNat ∧ op.toNat ≤ 0x15 ∧ ∃ v, (DcOk dc → DcOk v) ∧ toggleProgram op dc em = dcProgram v) ∨
    (0x16 ≤ op.toNat ∧ op.toNat ≤ 0x19 ∧ ∃ v, (EmOk em → EmOk v) ∧ toggleProgram op dc em = emProgram v) := by
  have hop := toggleOp_toNat h
  unfold toggleProgram
  split
  next hsel => exact .inr (.inl ⟨by omega, by omega, _, dcOk_setBit 2 _, rfl⟩)
  next hsel => exact .inr (.inl ⟨by omega, by omega, _, dcOk_setBit 1 _, rfl⟩)
  next hsel => exact .inr (.inl ⟨by omega, by omega, _, dcOk_setBit 0 _, rfl⟩)
  next hsel => exact .inr (.inr ⟨by omega, by omega, _, emOk_setBit 1 _, rfl⟩)
  next hsel => exact .inr (.inr ⟨by omega, by omega, _, emOk_setBit 0 _, rfl⟩)
  next _ h0 h1 h2 h3 h4 =>
    simp only [imp_false] at h0 h1 h2 h3 h4
    exact .inl ⟨by omega, rfl⟩

theorem toggleProgram_length {op dc em : Byte} (h : op.extractLsb' 4 4 = 0x1#4) (hop : op.toNat ≤ 0x19)
    (hdc : DcOk dc) (hem : EmOk em) : (toggleProgram op dc em).length = 15 := by
  obtain ⟨hlo, -⟩ | ⟨-, -, v, hv, he⟩ | ⟨-, -, v, hv, he⟩ := toggleProgram_cases op dc em h
  · omega
  · rw [he, dcProgram_length (hv hdc)]
  · rw [he, emProgram_length (hv hem)]

/-- What the micro-program of a request other than INIT is: byte transfers, or a toggle's load of a value with the
hardwired field and the sending of it (R140, R230). -/
theorem expand_cases (cfg : Config) (r : Request) (dc em : Byte) (h : r.op ≠ 0x01#8) :
    SendsOnly em (argsValid r.op r.a r.b = true) (expand cfg r dc em) ∨
    (0x10 ≤ r.op.toNat ∧ r.op.toNat ≤ 0x15 ∧ ∃ v, (DcOk dc → DcOk v) ∧ expand cfg r dc em = dcProgram v) ∨
    (0x16 ≤ r.op.toNat ∧ r.op.toNat ≤ 0x19 ∧ ∃ v, (EmOk em → EmOk v) ∧ expand cfg r dc em = emProgram v) := by
  have fixed : ∀ v, ¬ DcOk v ∧ ¬ EmOk v → SendsOnly em (argsValid r.op r.a r.b = true) (wcmd v) :=
    fun v hv => sendsOnly_wcmd em _ v fun _ => hv
  unfold expand
  split
  next hop => exact absurd hop h
  next => exact .inl (sendsOnly_clear em _)
  next => exact .inl (fixed 0x02#8 (by decide))
  next => exact .inl (fixed 0x18#8 (by decide))
  next => exact .inl (fixed 0x1C#8 (by decide))
  next => exact .inl (fixed 0x14#8 (by decide))
  next => exact .inl (fixed 0x10#8 (by decide))
  next hop => exact .inl (hop ▸ sendsOnly_setcur cfg em r.a r.b)
  next => exact .inl (sendsOnly_wdata em _ r.a)
  next hop => exact .inl (hop ▸ sendsOnly_addchar em r.a r.b r.pat)
  next =>
    split
    next hhi =>
      rcases toggleProgram_cases r.op dc em hhi with ⟨-, hnil⟩ | htoggle
      · exact .inl (hnil ▸ sendsOnly_nil em _)
      · exact .inr htoggle
    next => exact .inl (sendsOnly_nil em _)

end Sys2Proof.Machine
end

section
/-! SUPPORT. What a step does, by kind; and the state in which the micro-program under way completes, of which the invariant
and the shadow relation speak. -/

namespace Sys2Proof.Machine

/-! ## The step, input by input -/

theorem step_nil {s : State} (hi : s.inputs = []) : step s = advance Config.build s := by
  simp only [step, hi]

theorem step_sequencer {s : State} {rest : List Input} (hi : s.inputs = .sequencer :: rest) :
    step s = advance Config.build { s with inputs := rest } := by
  simp only [step, hi]

theorem step_readStatus {s : State} {rest : List Input} (hi : s.inputs = .readStatus :: rest) :
    step s = .next { s with inputs := rest } := by
  simp only [step, hi]

theorem step_poll_busy {s : State} {rest : List Input} (hi : s.inputs = .poll :: rest) (hb : s.busy = true) :
    step s = advance Config.build s := by
  simp only [step, hi, hb, if_true]

theorem step_poll_idle {s : State} {rest : List Input} (hi : s.inputs = .poll :: rest) (hb : s.busy = false) :
    step s = .next { s with inputs := rest } := by
  simp [step, hi, hb]

theorem step_reset {s : State} {rest : List Input} (hi : s.inputs = .reset :: rest) :
    step s = .next (assertReset { s with inputs := rest }) := by
  simp only [step, hi]

theorem step_request_some {s : State} {req : BitVec 24} {pat : Pattern} {rest : List Input} {i : Instr}
    (hi : s.inputs = .word (.request req pat) :: rest) (hd : decodeRequest (splitRequest req pat) = some i) :
    step s = exec i { s with inputs := rest } := by
  simp only [step, hi, decode, hd]

theorem step_request_none {s : State} {req : BitVec 24} {pat : Pattern} {rest : List Input}
    (hi : s.inputs = .word (.request req pat) :: rest) (hd : decodeRequest (splitRequest req pat) = none) :
    step s = .next (issueReserved { s with inputs := rest }) := by
  simp only [step, hi, decode, hd]

section Bus

variable {s : State} {w : InstrWord} {rest : List Input} (hi : s.inputs = .word w :: rest)
  (hw : ∀ req pat, w ≠ .request req pat)

include hi hw

theorem step_bus_busy (hb : s.busy = true) : step s = advance Config.build s := by
  cases w with
  | request req pat => exact absurd rfl (hw req pat)
  | command | data | nibble => simp only [step, hi, hb, if_true]

theorem step_bus_some {i : Instr} (hb : s.busy = false) (hd : decode w = some i) :
    step s = exec i { s with inputs := rest } := by
  cases w with
  | request req pat => exact absurd rfl (hw req pat)
  | command | data | nibble => simp [step, hi, hb, hd]

theorem step_bus_none (hb : s.busy = false) (hd : decode w = none) : step s = .refused .noBusRow := by
  cases w with
  | request req pat => exact absurd rfl (hw req pat)
  | command | data | nibble => simp [step, hi, hb, hd]

end Bus

/-! ## What a step does -/

theorem isRequest_of_decode_bus {w : InstrWord} {i : Instr} (h : decode w = some i)
    (hw : ∀ req pat, w ≠ .request req pat) : isRequest i = false := by
  cases w with
  | request req pat => exact absurd rfl (hw req pat)
  | command v =>
    have all : ∀ v : BitVec 8, (decodeCommand v).all (fun i => !isRequest i) = true := by decide
    simpa [show decodeCommand v = some i from h] using all v
  | data v => cases h; rfl
  | nibble n =>
    simp only [decode, decodeNibble] at h
    split_ifs at h
    cases h; rfl

/-- A bus row drives the lines, leaves EN at 0, appends its events, and changes nothing else (R142-R145). -/
theorem exec_bus_frame {w : InstrWord} {i : Instr} (h : decode w = some i) (hw : ∀ req pat, w ≠ .request req pat)
    (s : State) : ∃ rs d es,
      exec i s = .next { s with rs := rs, en := false, d := d, trace := s.trace ++ es } := by
  rw [exec_bus w i h hw]
  cases w with
  | request req pat => exact absurd rfl (hw req pat)
  | command v => exact ⟨_, _, _, congrArg _ (applyAll_wcmd _ v s)⟩
  | data v => exact ⟨_, _, _, congrArg _ (applyAll_wdata _ v s)⟩
  | nibble n => exact ⟨_, _, _, congrArg _ (applyAll_nibw _ n s)⟩

/-- The kinds of step, each with the state it leads to; `ins` are the inputs left. -/
inductive Stepped (s : State) : State → Prop where
  /-- A status read, the end of a poll, or the stutter step of an idle block. -/
  | idle (ins : List Input) : Stepped s { s with inputs := ins }
  /-- A micro-op with more to come (R141). -/
  | microOp (ins : List Input) (op : MicroOp) (busy : s.busy = true) (atUpc : s.useq[s.upc.toNat]? = some op)
      (more : (s.upc + 1#8).toNat ≠ s.useq.length) :
      Stepped s (advanceUpc (applyOp Config.build op { s with inputs := ins }))
  /-- The last micro-op (R141). -/
  | lastMicroOp (ins : List Input) (op : MicroOp) (busy : s.busy = true) (atUpc : s.useq[s.upc.toNat]? = some op)
      (last : (s.upc + 1#8).toNat = s.useq.length) :
      Stepped s (complete (applyOp Config.build op { s with inputs := ins }))
  /-- RST (R310). -/
  | reset (ins : List Input) (head : s.inputs = .reset :: ins) : Stepped s (assertReset { s with inputs := ins })
  /-- A request dropped with an error (R288). -/
  | dropped (ins : List Input) (k : ErrorKind) : Stepped s (raise k { s with inputs := ins })
  /-- A request accepted (R101). -/
  | accepted (ins : List Input) (req : BitVec 24) (pat : Pattern) (i : Instr) (r : Request)
      (head : s.inputs = .word (.request req pat) :: ins) (split : splitRequest req pat = r)
      (decodes : decodeRequest r = some i) (idle : s.busy = false) (ready : r.op = 0x01#8 ∨ s.fsm = .ready)
      (valid : argsValid r.op r.a r.b = true ∨ Config.build.boundsCheck = false) :
      Stepped s (upload r (expand Config.build r s.dc s.em) { s with inputs := ins })
  /-- A bus row run whole (log 4). -/
  | transferred (ins : List Input) (w : InstrWord) (i : Instr) (rs : Bool) (d : Nibble) (es : List Event)
      (head : s.inputs = .word w :: ins) (decodes : decode w = some i) (bus : isRequest i = false)
      (idle : s.busy = false) :
      Stepped s { s with rs := rs, en := false, d := d, trace := s.trace ++ es, inputs := ins }

theorem stepped_of_advance {s t : State} (ins : List Input)
    (h : advance Config.build { s with inputs := ins } = .next t) : Stepped s t := by
  unfold advance at h
  split at h
  next hb =>
    obtain ⟨op, hop, ⟨hl, rfl⟩ | ⟨hm, rfl⟩⟩ := sequencerStep_next _ _ _ h
    · exact .lastMicroOp ins op hb hop hl
    · exact .microOp ins op hb hop hm
  next =>
    cases h
    exact .idle ins

/-- Every step that answers a next state is of one of the kinds. -/
theorem stepped_of_step {s t : State} (h : step s = .next t) : Stepped s t := by
  obtain ⟨hadv, -⟩ | ⟨x, ins, hi, hx⟩ := step_next s t h
  · exact stepped_of_advance s.inputs hadv
  rcases hx with ⟨rfl, hadv⟩ | ⟨-, rfl⟩ | ⟨rfl, rfl⟩ | ⟨req, pat, rfl, -, rfl⟩ | ⟨req, pat, i, rfl, hd, hexec⟩ |
    ⟨w, i, rfl, hw, hb, hd, hexec⟩
  · exact stepped_of_advance ins hadv
  · exact .idle ins
  · exact .reset ins hi
  · unfold issueReserved
    split
    · exact .dropped ins .ovr
    · exact .dropped ins .ill
  · rw [exec_request _ i hd] at hexec
    cases hexec
    rcases issue_cases Config.build (_ == 0x01#8) (argsValid _ _ _) (splitRequest req pat)
        (expand Config.build (splitRequest req pat) s.dc s.em) { s with inputs := ins } with
      ⟨-, he⟩ | ⟨-, -, -, he⟩ | ⟨-, -, -, -, he⟩ | ⟨hb, hr, hv, he⟩ <;> rw [he]
    · exact .dropped ins .ovr
    · exact .dropped ins .nr
    · exact .dropped ins .arg
    · exact .accepted ins req pat i _ hi rfl hd hb (by simpa using hr) hv
  · obtain ⟨rs, d, es, he⟩ := exec_bus_frame hd hw { s with inputs := ins }
    rw [he] at hexec
    cases hexec
    exact .transferred ins w i rs d es hi hd (isRequest_of_decode_bus hd hw) hb

/-! ## Where the micro-program under way ends -/

/-- The state in which the micro-program under way completes, but for the sequencer's own registers (R141). -/
def finalState (s : State) : State := applyAll Config.build (remaining s) s

/-- EN is 0, and the block is Uninitialized with its lines undriven, or Ready and driving them (R150, R171, R283). -/
abbrev AtRest (s : State) : Prop :=
  s.en = false ∧ (s.fsm = .uninitialized ∧ s.oe = false ∨ s.fsm = .ready ∧ s.oe = true)

theorem boundaryOk_iff (s : State) : BoundaryOk s ↔ AtRest (finalState s) := by
  simp only [BoundaryOk, AtRest, finalState, applyAll_en, applyAll_fsm, applyAll_oe]

theorem shadowsSettle_iff (s : State) :
    ShadowsSettle s ↔ ((finalState s).fsm = .ready → ShadowsMatch (finalState s)) := by
  simp only [ShadowsSettle, finalState, applyAll_fsm]

theorem remaining_eq_cons {s : State} {op : MicroOp} (h : s.useq[s.upc.toNat]? = some op) :
    remaining s = op :: s.useq.drop (s.upc.toNat + 1) := by
  obtain ⟨hlt, rfl⟩ := List.getElem?_eq_some_iff.mp h
  exact List.drop_eq_getElem_cons hlt

theorem finalState_of_useq_nil {s : State} (h : s.useq = []) : finalState s = s := by
  simp [finalState, remaining, h]

theorem finalState_upload (r : Request) (ops : List MicroOp) (s : State) :
    finalState (upload r ops s) = applyAll Config.build ops (upload r ops s) := rfl

/-- In a well-formed sequencer `upc` does not wrap. -/
theorem upc_succ_toNat {s : State} (h : SequencerOk s) (hb : s.busy = true) :
    (s.upc + 1#8).toNat = s.upc.toNat + 1 := by
  obtain ⟨hlt, hle⟩ := (if_pos hb).mp h
  bv_omega

/-- Running a micro-op does not change where the micro-program ends. -/
theorem finalState_advanceUpc {s : State} {op : MicroOp} (hs : SequencerOk s) (hb : s.busy = true)
    (hop : s.useq[s.upc.toNat]? = some op) :
    finalState (advanceUpc (applyOp Config.build op s)) = advanceUpc (finalState s) := by
  have hrem : remaining (advanceUpc (applyOp Config.build op s)) = s.useq.drop (s.upc.toNat + 1) := by
    simp [remaining, upc_succ_toNat hs hb]
  rw [finalState, hrem, applyAll_advanceUpc, finalState, remaining_eq_cons hop, applyAll_cons]

/-- The last micro-op leads to where the micro-program ends. -/
theorem finalState_complete {s : State} {op : MicroOp} (hs : SequencerOk s) (hb : s.busy = true)
    (hop : s.useq[s.upc.toNat]? = some op) (hl : (s.upc + 1#8).toNat = s.useq.length) :
    finalState (complete (applyOp Config.build op s)) = complete (finalState s) := by
  have hrem : remaining s = [op] := by
    rw [remaining_eq_cons hop, ← upc_succ_toNat hs hb, hl, List.drop_length]
  rw [finalState_of_useq_nil rfl, finalState, hrem, applyAll_cons, applyAll_nil]

theorem useq_nil_of_idle {s : State} (h : SequencerOk s) (hb : s.busy = false) : s.useq = [] :=
  ((if_neg (by simp [hb])).mp h).1

end Sys2Proof.Machine
end

section
/-! SUPPORT. The invariant of the machine: what an accepted micro-program brings, and that each kind of step keeps it. -/

namespace Sys2Proof.Machine

/-! ## What an accepted micro-program does -/

theorem expand_init (cfg : Config) {r : Request} (dc em : Byte) (h : r.op = 0x01#8) :
    expand cfg r dc em = initProgram := by
  obtain ⟨op, a, b, pat⟩ := r
  obtain rfl : op = 0x01#8 := h
  rfl

theorem expand_toggle (cfg : Config) {r : Request} (dc em : Byte) (h : r.op.extractLsb' 4 4 = 0x1#4) :
    expand cfg r dc em = toggleProgram r.op dc em := by
  unfold expand
  split
  case h_11 => exact if_pos h
  all_goals
    next hop => exact absurd (hop ▸ h) (by decide)

theorem expand_length_le (cfg : Config) (r : Request) (dc em : Byte) : (expand cfg r dc em).length ≤ 140 := by
  have load_le : ∀ op v, (op :: wcmd v).length ≤ 140 := by
    intro op v
    rw [List.length_cons, wcmd_length]
    split <;> omega
  by_cases hop : r.op = 0x01#8
  · rw [expand_init cfg dc em hop]
    decide
  · obtain ⟨-, -, hle, -⟩ | ⟨-, -, v, -, h⟩ | ⟨-, -, v, -, h⟩ := expand_cases cfg r dc em hop
    · exact hle
    · exact h ▸ load_le (.lddc v) v
    · exact h ▸ load_le (.ldem v) v

theorem loadOk_of_mem_sendBytes {op : MicroOp} {xs : List (Bool × Byte)} (h : op ∈ sendBytes xs) : loadOk op = true := by
  have hbus := isBusOp_of_mem_sendBytes h
  cases op with
  | rs | d | en | wait => rfl
  | cfg | fsm | lddc | ldem => cases hbus

/-- Every load of an accepted micro-program keeps the hardwired field of its shadow (R38). -/
theorem loadOk_expand (cfg : Config) (r : Request) {dc em : Byte} (hdc : DcOk dc) (hem : EmOk em) :
    ∀ op ∈ expand cfg r dc em, loadOk op = true := by
  have load_ok : ∀ first v, loadOk first = true → ∀ op ∈ first :: wcmd v, loadOk op = true := by
    intro first v hfirst op hop
    rcases List.mem_cons.mp hop with rfl | hop
    · exact hfirst
    · exact loadOk_of_mem_sendBytes (sendBytes_wcmd v ▸ hop)
  by_cases hop : r.op = 0x01#8
  · rw [expand_init cfg dc em hop]
    decide
  · obtain ⟨xs, h, -⟩ | ⟨-, -, v, hv, h⟩ | ⟨-, -, v, hv, h⟩ := expand_cases cfg r dc em hop <;> rw [h]
    · exact fun op => loadOk_of_mem_sendBytes
    · exact load_ok _ v (decide_eq_true (hv hdc))
    · exact load_ok _ v (decide_eq_true (hv hem))

/-- INIT leaves the block Ready and driving its lines, with EN at 0 (R170, R171). -/
theorem applyAll_initProgram (cfg : Config) (s : State) :
    (applyAll cfg initProgram s).fsm = .ready ∧ (applyAll cfg initProgram s).oe = true ∧
      (applyAll cfg initProgram s).en = false :=
  ⟨rfl, rfl, rfl⟩

/-- A request other than INIT leaves the initialization state and OE alone, and an EN that was 0 is 0 again (R35, R42,
R150). -/
theorem applyAll_expand_frame (cfg : Config) {r : Request} (h : r.op ≠ 0x01#8) (dc em : Byte) (s : State) :
    (applyAll cfg (expand cfg r dc em) s).fsm = s.fsm ∧ (applyAll cfg (expand cfg r dc em) s).oe = s.oe ∧
      (s.en = false → (applyAll cfg (expand cfg r dc em) s).en = false) := by
  obtain ⟨xs, he, -⟩ | ⟨-, -, v, -, he⟩ | ⟨-, -, v, -, he⟩ := expand_cases cfg r dc em h <;> rw [he]
  · obtain ⟨rs, en, d, hen, ha⟩ := applyAll_sendBytes cfg xs s
    rw [ha]
    exact ⟨rfl, rfl, hen⟩
  · rw [dcProgram, applyAll_cons, applyAll_wcmd]
    exact ⟨rfl, rfl, fun _ => rfl⟩
  · rw [emProgram, applyAll_cons, applyAll_wcmd]
    exact ⟨rfl, rfl, fun _ => rfl⟩

/-- A request accepted at rest ends at rest (R150, R171). -/
theorem atRest_applyAll_expand (cfg : Config) (r : Request) (dc em : Byte) {s : State} (h : AtRest s) :
    AtRest (applyAll cfg (expand cfg r dc em) s) := by
  obtain ⟨hsen, hs⟩ := h
  by_cases hop : r.op = 0x01#8
  · rw [expand_init cfg dc em hop]
    obtain ⟨hfsm, hoe, hen⟩ := applyAll_initProgram cfg s
    exact ⟨hen, .inr ⟨hfsm, hoe⟩⟩
  · obtain ⟨hfsm, hoe, hen⟩ := applyAll_expand_frame cfg hop dc em s
    rw [AtRest, hfsm, hoe]
    exact ⟨hen hsen, hs⟩

/-- A request accepted by a Ready block leaves it Ready (R171). -/
theorem fsm_applyAll_expand (cfg : Config) (r : Request) (dc em : Byte) {s : State} (h : s.fsm = .ready) :
    (applyAll cfg (expand cfg r dc em) s).fsm = .ready := by
  by_cases hop : r.op = 0x01#8
  · rw [expand_init cfg dc em hop]
    exact (applyAll_initProgram cfg s).1
  · exact (applyAll_expand_frame cfg hop dc em s).1.trans h

/-! ## The invariant, kind of step by kind of step -/

/-- A micro-op whose load keeps the hardwired fields keeps those of the shadows (R38). -/
theorem applyOp_shadowsOk (cfg : Config) {op : MicroOp} {s : State} (hop : loadOk op = true) (hdc : DcOk s.dc)
    (hem : EmOk s.em) : DcOk (applyOp cfg op s).dc ∧ EmOk (applyOp cfg op s).em := by
  cases op with
  | lddc v => exact ⟨of_decide_eq_true hop, hem⟩
  | ldem v => exact ⟨hdc, of_decide_eq_true hop⟩
  | cfg | rs | d | en | wait | fsm => exact ⟨hdc, hem⟩

/-- Moving on keeps the sequencer well-formed while there is more to come (R31-R33). -/
theorem sequencerOk_advanceUpc (cfg : Config) {s : State} (op : MicroOp) (hs : SequencerOk s) (hb : s.busy = true)
    (hm : (s.upc + 1#8).toNat ≠ s.useq.length) : SequencerOk (advanceUpc (applyOp cfg op s)) := by
  obtain ⟨hlt, hle⟩ := (if_pos hb).mp hs
  have hup := upc_succ_toNat hs hb
  simp only [SequencerOk, advanceUpc_busy, applyOp_busy, hb, if_true, advanceUpc_upc, applyOp_upc, advanceUpc_useq,
    applyOp_useq]
  omega

theorem inv_microOp {s : State} {op : MicroOp} (h : Inv s) (hb : s.busy = true) (hop : s.useq[s.upc.toNat]? = some op)
    (hm : (s.upc + 1#8).toNat ≠ s.useq.length) : Inv (advanceUpc (applyOp Config.build op s)) := by
  obtain ⟨hseq, hdc, hem, hload, hbound⟩ := h
  obtain ⟨hdc', hem'⟩ := applyOp_shadowsOk Config.build (hload op (List.mem_of_getElem? hop)) hdc hem
  refine ⟨sequencerOk_advanceUpc _ op hseq hb hm, hdc', hem', by simpa using hload, ?_⟩
  rw [boundaryOk_iff, finalState_advanceUpc hseq hb hop]
  exact (boundaryOk_iff s).mp hbound

theorem inv_lastMicroOp {s : State} {op : MicroOp} (h : Inv s) (hb : s.busy = true)
    (hop : s.useq[s.upc.toNat]? = some op) (hl : (s.upc + 1#8).toNat = s.useq.length) :
    Inv (complete (applyOp Config.build op s)) := by
  obtain ⟨hseq, hdc, hem, hload, hbound⟩ := h
  obtain ⟨hdc', hem'⟩ := applyOp_shadowsOk Config.build (hload op (List.mem_of_getElem? hop)) hdc hem
  refine ⟨by simp [SequencerOk], hdc', hem', by simp, ?_⟩
  rw [boundaryOk_iff, finalState_complete hseq hb hop hl]
  exact (boundaryOk_iff s).mp hbound

theorem sequencerOk_upload {ops : List MicroOp} (h : ops.length ≤ 140) (r : Request) (s : State) :
    SequencerOk (upload r ops s) := by
  cases ops <;> simp_all [SequencerOk]

theorem inv_upload {s : State} (h : Inv s) (hb : s.busy = false) (r : Request) :
    Inv (upload r (expand Config.build r s.dc s.em) s) := by
  obtain ⟨hseq, hdc, hem, -, hbound⟩ := h
  refine ⟨sequencerOk_upload (expand_length_le _ r _ _) r s, hdc, hem, loadOk_expand _ r hdc hem, ?_⟩
  rw [boundaryOk_iff, finalState_of_useq_nil (useq_nil_of_idle hseq hb)] at hbound
  rw [boundaryOk_iff, finalState_upload]
  exact atRest_applyAll_expand _ r _ _ (s := upload r _ s) hbound

theorem inv_transferred {s : State} (h : Inv s) (hb : s.busy = false) (rs : Bool) (d : Nibble) (es : List Event) :
    Inv { s with rs := rs, en := false, d := d, trace := s.trace ++ es } := by
  obtain ⟨hseq, hdc, hem, hload, hbound⟩ := h
  have hnil := useq_nil_of_idle hseq hb
  refine ⟨hseq, hdc, hem, hload, ?_⟩
  rw [boundaryOk_iff, finalState_of_useq_nil hnil] at hbound
  rw [boundaryOk_iff, finalState_of_useq_nil (by exact hnil)]
  exact ⟨rfl, hbound.2⟩

theorem inv_reset : Inv State.reset := by decide

/-- The invariant does not speak of the inputs, the one field RST keeps. -/
theorem inv_assertReset (s : State) : Inv (assertReset s) := inv_reset

end Sys2Proof.Machine

open Sys2Proof Sys2Proof.Machine

/-- Settles O29, kind of step by kind of step; the boundary clause says that the state in which the micro-program under way
completes is at rest, and running a micro-op does not change that state. -/
theorem stepKeepsInvariant : Obligations.StepKeepsInvariant := by
  intro s t hs h
  cases stepped_of_step h with
  | idle ins => exact hs
  | microOp ins op hb hop hm => exact inv_microOp (s := { s with inputs := ins }) hs hb hop hm
  | lastMicroOp ins op hb hop hl => exact inv_lastMicroOp (s := { s with inputs := ins }) hs hb hop hl
  | reset ins => exact inv_assertReset _
  | dropped ins k => exact hs
  | accepted ins req pat i r _ _ _ hb => exact inv_upload (s := { s with inputs := ins }) hs hb r
  | transferred ins w i rs d es _ _ _ hb => exact inv_transferred (s := { s with inputs := ins }) hs hb rs d es

/-- Settles O30. -/
theorem invariantHoldsAtReset : Obligations.InvariantHoldsAtReset := inv_reset
end

section
/-! SUPPORT. The shadow relation of R39: what the trace decoder reads of byte transfers, and that every request with in-range
operands keeps the relation. -/

namespace Sys2Proof.Machine

/-! ## Reading byte transfers -/

/-- The item a byte transfer is on the bus (R109). -/
def itemOf (x : Bool × Byte) : BusItem := if x.1 then .dat x.2 else .cmd x.2

theorem betweenBytes_iff (es : List Event) : betweenBytes es = true ↔ AtByte (decodeFrom Decoder.start es) := by
  simp [betweenBytes, AtByte, and_assoc]

/-- Waits change neither the items nor where the decoder stands. -/
theorem decodeFrom_waits (cfg : Config) (ps : List Delay) (k : Decoder) (h : AtByte k) :
    AtByte (decodeFrom k (eventsOf cfg (ps.map .wait))) ∧ (decodeFrom k (eventsOf cfg (ps.map .wait))).items = k.items := by
  induction ps generalizing k with
  | nil => exact ⟨h, rfl⟩
  | cons p ps ih =>
    obtain ⟨hitems, hat⟩ := decodeFrom_wait (delayUs cfg p) k
    exact hitems ▸ ih _ (hat h)

/-- A byte transfer is a transfer of two nibbles and then waits (R144, R145). -/
theorem sendByte_eq (x : Bool × Byte) : ∃ ps : List Delay, sendByte x = xfer x.2 x.1 ++ ps.map .wait := by
  obtain ⟨_ | _, v⟩ := x
  · cases hl : longCommand v
    · exact ⟨[.short], by simp [sendByte, wcmd, hl]⟩
    · exact ⟨[.short, .long], by simp [sendByte, wcmd, hl]⟩
  · exact ⟨[.short], rfl⟩

theorem decodeFrom_sendByte (cfg : Config) (x : Bool × Byte) (k : Decoder) (h : AtByte k) :
    AtByte (decodeFrom k (eventsOf cfg (sendByte x))) ∧
      (decodeFrom k (eventsOf cfg (sendByte x))).items = k.items ++ [itemOf x] := by
  obtain ⟨ps, hps⟩ := sendByte_eq x
  obtain ⟨hat, hitems⟩ := decodeFrom_xfer cfg x.2 x.1 k h
  rw [hps, eventsOf_append, decodeFrom_append, itemOf, ← hitems]
  exact decodeFrom_waits cfg ps _ hat

/-- Byte transfers read from between two transfers are their items, in order (R109, R110). -/
theorem decodeFrom_sendBytes (cfg : Config) (xs : List (Bool × Byte)) (k : Decoder) (h : AtByte k) :
    AtByte (decodeFrom k (eventsOf cfg (sendBytes xs))) ∧
      (decodeFrom k (eventsOf cfg (sendBytes xs))).items = k.items ++ xs.map itemOf := by
  induction xs generalizing k with
  | nil => exact ⟨h, (List.append_nil _).symm⟩
  | cons x xs ih =>
    obtain ⟨hat, hitems⟩ := decodeFrom_sendByte cfg x k h
    rw [sendBytes_cons, eventsOf_append, decodeFrom_append, List.map_cons, ← List.singleton_append, ← List.append_assoc,
      ← hitems]
    exact ih _ hat

/-! ## The last byte of a class -/

/-- The last byte of a class among the COMMAND bytes; both shadows' functions are this one (R39). -/
def lastOfClass (mask bits : Byte) (items : List BusItem) : Option Byte :=
  items.foldl (fun last x => match x with
    | .cmd v => if v &&& mask = bits then some v else last
    | .cfg | .nib _ | .dat _ => last) none

theorem lastDisplayControl_eq (items : List BusItem) : lastDisplayControl items = lastOfClass 0xF8#8 0x08#8 items := rfl

theorem lastEntryMode_eq (items : List BusItem) : lastEntryMode items = lastOfClass 0xFC#8 0x04#8 items := rfl

theorem lastOfClass_concat (mask bits : Byte) (items : List BusItem) (x : Bool × Byte) :
    lastOfClass mask bits (items ++ [itemOf x]) =
      if x.1 = false ∧ x.2 &&& mask = bits then some x.2 else lastOfClass mask bits items := by
  obtain ⟨_ | _, v⟩ := x <;> simp [lastOfClass, List.foldl_append, itemOf]

/-- After byte transfers whose only byte of a class is w, the last of the class is w, if it was before or w is sent. -/
theorem lastOfClass_append (mask bits w : Byte) (xs : List (Bool × Byte))
    (only : ∀ v, (false, v) ∈ xs → v &&& mask = bits → v = w) (items : List BusItem)
    (h : lastOfClass mask bits items = some w ∨ ((false, w) ∈ xs ∧ w &&& mask = bits)) :
    lastOfClass mask bits (items ++ xs.map itemOf) = some w := by
  induction xs generalizing items with
  | nil => simpa using h
  | cons x xs ih =>
    rw [List.map_cons, ← List.singleton_append, ← List.append_assoc]
    refine ih (fun v hv => only v (List.mem_cons_of_mem _ hv)) _ ?_
    rw [lastOfClass_concat]
    obtain ⟨m, v⟩ := x
    by_cases hx : m = false ∧ v &&& mask = bits
    · obtain ⟨rfl, hv⟩ := hx
      exact .inl (by rw [if_pos ⟨rfl, hv⟩, only v List.mem_cons_self hv])
    · rw [if_neg hx]
      refine h.imp_right fun ⟨hw, hbits⟩ => ⟨(List.mem_cons.mp hw).resolve_left ?_, hbits⟩
      rintro ⟨⟩
      exact hx ⟨rfl, hbits⟩

/-- Byte transfers end with matching shadows if the only byte of each class among them is the shadow's, and each shadow is
matched before or sent. -/
theorem shadowsMatch_sendBytes (cfg : Config) (xs : List (Bool × Byte)) (s : State) (hb : betweenBytes s.trace = true)
    (onlyDc : ∀ v, (false, v) ∈ xs → DcOk v → v = s.dc)
    (hdc : lastDisplayControl (bytes s.trace) = some s.dc ∨ ((false, s.dc) ∈ xs ∧ DcOk s.dc))
    (onlyEm : ∀ v, (false, v) ∈ xs → EmOk v → v = s.em)
    (hem : lastEntryMode (bytes s.trace) = some s.em ∨ ((false, s.em) ∈ xs ∧ EmOk s.em)) :
    ShadowsMatch (applyAll cfg (sendBytes xs) s) := by
  obtain ⟨rs, en, d, -, ha⟩ := applyAll_sendBytes cfg xs s
  obtain ⟨hat, hitems⟩ := decodeFrom_sendBytes cfg xs _ ((betweenBytes_iff _).mp hb)
  rw [← decodeFrom_append] at hat hitems
  rw [ha]
  refine ⟨(betweenBytes_iff _).mpr hat, ?_⟩
  simp only [bytes, hitems]
  exact ⟨lastOfClass_append _ _ _ xs onlyDc _ hdc, lastOfClass_append _ _ _ xs onlyEm _ hem⟩

/-! ## Requests keep the relation -/

/-- INIT up to the loads of the shadows (R170). -/
def initLead : List MicroOp :=
  initPowerOn ++ initSync ++ .fsm .functionSet :: wcmd 0x28#8 ++ [.fsm .ready, .lddc dcDefault, .ldem emDefault]

/-- The bytes INIT sends after the loads (R170). -/
def initBytes : List (Bool × Byte) := [(false, dcDefault), (false, emDefault), (false, 0x01#8), (false, emDefault)]

theorem initProgram_eq : initProgram = initLead ++ sendBytes initBytes := by decide

/-- CFG puts the decoder at a known place, so INIT's lead ends between two transfers after any trace (R109). -/
theorem atByte_initLead (cfg : Config) (k : Decoder) : AtByte (decodeFrom k (eventsOf cfg initLead)) :=
  ⟨rfl, rfl, rfl⟩

/-- INIT establishes R39, whatever came before (R170). -/
theorem shadowsMatch_init (cfg : Config) (s : State) : ShadowsMatch (applyAll cfg initProgram s) := by
  rw [initProgram_eq, applyAll_append]
  have hdc : (applyAll cfg initLead s).dc = dcDefault := rfl
  have hem : (applyAll cfg initLead s).em = emDefault := rfl
  have onlyDc : ∀ x ∈ initBytes, DcOk x.2 → x.2 = dcDefault := by
    simp [initBytes, dcDefault, emDefault, DcOk]
  have onlyEm : ∀ x ∈ initBytes, EmOk x.2 → x.2 = emDefault := by
    simp [initBytes, dcDefault, emDefault, EmOk]
  refine shadowsMatch_sendBytes cfg initBytes _ ?_ (fun v hv => by rw [hdc]; exact onlyDc _ hv) (.inr ?_)
    (fun v hv => by rw [hem]; exact onlyEm _ hv) (.inr ?_)
  · rw [betweenBytes_iff, applyAll_trace, decodeFrom_append]
    exact atByte_initLead cfg _
  · rw [hdc]
    decide
  · rw [hem]
    decide

/-- Byte transfers that keep the shadows keep R39. -/
theorem shadowsMatch_of_keepsShadows (cfg : Config) {xs : List (Bool × Byte)} {s : State} (hx : KeepsShadows s.em xs)
    (h : ShadowsMatch s) : ShadowsMatch (applyAll cfg (sendBytes xs) s) := by
  obtain ⟨hb, hdc, hem⟩ := h
  exact shadowsMatch_sendBytes cfg xs s hb (fun v hv hv' => absurd hv' (hx v hv).1) (.inl hdc) (fun v hv => (hx v hv).2)
    (.inl hem)

/-- A DisplayControl toggle sends what it loads (R230). -/
theorem shadowsMatch_dcProgram (cfg : Config) {v : Byte} (hv : DcOk v) {s : State} (h : ShadowsMatch s) :
    ShadowsMatch (applyAll cfg (dcProgram v) s) := by
  obtain ⟨hb, -, hem⟩ := h
  rw [dcProgram, applyAll_cons, ← sendBytes_wcmd]
  refine shadowsMatch_sendBytes cfg [(false, v)] _ hb ?_ (.inr ⟨List.mem_singleton_self _, hv⟩) ?_ (.inl hem)
  · intro w hw _
    show w = v
    simpa using hw
  · intro w hw hw'
    obtain rfl : w = v := by simpa using hw
    exact absurd hw' (dcOk_classes hv).1

/-- An EntryMode toggle sends what it loads (R230). -/
theorem shadowsMatch_emProgram (cfg : Config) {v : Byte} (hv : EmOk v) {s : State} (h : ShadowsMatch s) :
    ShadowsMatch (applyAll cfg (emProgram v) s) := by
  obtain ⟨hb, hdc, -⟩ := h
  rw [emProgram, applyAll_cons, ← sendBytes_wcmd]
  refine shadowsMatch_sendBytes cfg [(false, v)] _ hb ?_ (.inl hdc) ?_ (.inr ⟨List.mem_singleton_self _, hv⟩)
  · intro w hw hw'
    obtain rfl : w = v := by simpa using hw
    exact absurd hw' (emOk_classes hv).1
  · intro w hw _
    show w = v
    simpa using hw

/-- A request with in-range operands ends with matching shadows: INIT from any state, another from matching shadows
(R39). -/
theorem shadowsMatch_expand (cfg : Config) (r : Request) (s : State) (hdc : DcOk s.dc) (hem : EmOk s.em)
    (hvalid : argsValid r.op r.a r.b = true) (h : r.op = 0x01#8 ∨ ShadowsMatch s) :
    ShadowsMatch (applyAll cfg (expand cfg r s.dc s.em) s) := by
  by_cases hop : r.op = 0x01#8
  · rw [expand_init cfg _ _ hop]
    exact shadowsMatch_init cfg s
  · have hs := h.resolve_left hop
    obtain ⟨xs, he, -, hkeep⟩ | ⟨-, -, v, hv, he⟩ | ⟨-, -, v, hv, he⟩ := expand_cases cfg r s.dc s.em hop <;> rw [he]
    · exact shadowsMatch_of_keepsShadows cfg (hkeep hvalid hem) hs
    · exact shadowsMatch_dcProgram cfg (hv hdc) hs
    · exact shadowsMatch_emProgram cfg (hv hem) hs

/-! ## The relation, kind of step by kind of step -/

/-- The operands of a request are in range when its own check says so (R103). -/
theorem inRange_eq_argsValid {r : Request} {i : Instr} (h : decodeRequest r = some i) :
    inRange i = argsValid r.op r.a r.b := by
  obtain ⟨op, a, b, pat⟩ := r
  simp only [decodeRequest] at h
  split at h <;> cases h <;> rfl

/-- An accepted request with operands in range keeps the relation: an idle block that accepts another request than INIT is
Ready, with matching shadows. -/
theorem shadowsSettle_upload {s : State} (hinv : Inv s) (h : ShadowsSettle s) (hb : s.busy = false) (r : Request)
    (hready : r.op = 0x01#8 ∨ s.fsm = .ready) (hvalid : argsValid r.op r.a r.b = true) :
    ShadowsSettle (upload r (expand Config.build r s.dc s.em) s) := by
  obtain ⟨hseq, hdc, hem, -, -⟩ := hinv
  rw [shadowsSettle_iff, finalState_of_useq_nil (useq_nil_of_idle hseq hb)] at h
  rw [shadowsSettle_iff, finalState_upload]
  intro _
  exact shadowsMatch_expand Config.build r (upload r _ s) hdc hem hvalid (hready.imp_right h)

/-- The block is not Ready after RST (R312). -/
theorem shadowsSettle_assertReset (s : State) : ShadowsSettle (assertReset s) :=
  (shadowsSettle_boundary _ rfl).mpr fun h => nomatch h

/-- A stretch of micro-program reads neither the inputs nor the errors. -/
theorem applyAll_inputs_err (cfg : Config) (ops : List MicroOp) (s : State) (ins : List Input) (e : Errors) :
    applyAll cfg ops { s with inputs := ins, err := e } = { applyAll cfg ops s with inputs := ins, err := e } := by
  induction ops generalizing s with
  | nil => rfl
  | cons op ops ih =>
    rw [applyAll_cons, applyAll_cons, ← ih]
    cases op <;> rfl

/-- The relation does not speak of the inputs or the errors. -/
theorem shadowsSettle_inputs_err {s : State} (h : ShadowsSettle s) (ins : List Input) (e : Errors) :
    ShadowsSettle { s with inputs := ins, err := e } := by
  intro hready
  have hfinal := applyAll_inputs_err Config.build (remaining s) s ins e
  have hs : ShadowsMatch { applyAll Config.build (remaining s) s with inputs := ins, err := e } := h hready
  rwa [← hfinal] at hs

end Sys2Proof.Machine

open Sys2Proof Sys2Proof.Machine

/-- Settles O54, kind of step by kind of step. A dropped request and a micro-op do not change where the micro-program under
way ends; an accepted one ends with matching shadows (`shadowsMatch_expand`); a bus row is no request. -/
theorem stepKeepsShadowsSettled : Obligations.StepKeepsShadowsSettled := by
  intro s t hinv hs hin h
  cases stepped_of_step h with
  | idle ins => exact shadowsSettle_inputs_err hs ins _
  | microOp ins op hb hop hm =>
    have hs' := (shadowsSettle_iff _).mp (shadowsSettle_inputs_err hs ins s.err)
    rw [shadowsSettle_iff, finalState_advanceUpc (s := { s with inputs := ins }) hinv.1 hb hop]
    exact hs'
  | lastMicroOp ins op hb hop hl =>
    have hs' := (shadowsSettle_iff _).mp (shadowsSettle_inputs_err hs ins s.err)
    rw [shadowsSettle_iff, finalState_complete (s := { s with inputs := ins }) hinv.1 hb hop hl]
    exact hs'
  | reset ins => exact shadowsSettle_assertReset _
  | dropped ins k => exact shadowsSettle_inputs_err hs ins _
  | accepted ins req pat i r hi hr hd hb hready hvalid =>
    have hvalid' : argsValid r.op r.a r.b = true := by
      subst hr
      obtain ⟨-, hrange⟩ := hin _ ins i hi hd
      rw [inRange_eq_argsValid hd] at hrange
      rcases hvalid with hvalid | hunchecked
      · exact hvalid
      · exact hrange.resolve_right (by simp [hunchecked])
    exact shadowsSettle_upload (s := { s with inputs := ins }) hinv (shadowsSettle_inputs_err hs ins s.err) hb r hready
      hvalid'
  | transferred ins w i rs d es hi hd hbus =>
    obtain ⟨hreq, -⟩ := hin w ins i hi hd
    exact absurd (hreq.symm.trans hbus) (by decide)

/-- Settles O55: State.reset is what RST makes of it, and the block is not Ready there. -/
theorem shadowsSettledAtReset : Obligations.ShadowsSettledAtReset :=
  shadowsSettle_assertReset State.reset
end

section
/-! SUPPORT. What the kinds of step say of one part of the state each: the errors, the initialization state, OE, the shadows,
the trace and the request latch. -/

namespace Sys2Proof.Machine

/-! ## Errors -/

/-- Setting an error bit sets that one and keeps the others (R43). -/
theorem hasError_setError (k k' : ErrorKind) (e : Errors) :
    hasError k (setError k' e) = (decide (k = k') || hasError k e) := by
  cases k <;> cases k' <;> simp [hasError, setError]

/-! ## The initialization state, OE and the shadows -/

/-- Between two states OE is not released, and the initialization state and the shadows change only as the micro-op `op`, if
there is one, says (R35-R37, R42). -/
structure ChangesOnlyBy (op : Option MicroOp) (s t : State) : Prop where
  oe : s.oe = true → t.oe = true
  fsm : t.fsm ≠ s.fsm → op = some (.fsm t.fsm)
  dc : t.dc ≠ s.dc → op = some (.lddc t.dc)
  em : t.em ≠ s.em → op = some (.ldem t.em)

theorem changesOnlyBy_applyOp (cfg : Config) (op : MicroOp) (s : State) :
    ChangesOnlyBy (some op) s (applyOp cfg op s) := by
  cases op <;> constructor <;> simp [applyOp]

theorem changesOnlyBy_of_eq {op : Option MicroOp} {s t : State} (hoe : t.oe = s.oe) (hfsm : t.fsm = s.fsm)
    (hdc : t.dc = s.dc) (hem : t.em = s.em) : ChangesOnlyBy op s t :=
  ⟨fun h => hoe.trans h, fun h => absurd hfsm h, fun h => absurd hdc h, fun h => absurd hem h⟩

/-- The micro-op that a busy block is at. -/
def currentOp (s : State) : Option MicroOp := if s.busy then s.useq[s.upc.toNat]? else none

theorem currentOp_eq_some {s : State} {op : MicroOp} :
    currentOp s = some op ↔ s.busy = true ∧ s.useq[s.upc.toNat]? = some op := by
  simp [currentOp]

theorem Stepped.changesOnlyBy {s t : State} (h : Stepped s t) (hr : s.inputs.head? ≠ some .reset) :
    ChangesOnlyBy (currentOp s) s t := by
  cases h with
  | microOp ins op hb hop | lastMicroOp ins op hb hop =>
    rw [currentOp_eq_some.mpr ⟨hb, hop⟩]
    obtain ⟨hoe, hfsm, hdc, hem⟩ := changesOnlyBy_applyOp Config.build op { s with inputs := ins }
    exact ⟨hoe, hfsm, hdc, hem⟩
  | reset ins hi => simp [hi] at hr
  | idle | dropped | accepted | transferred => exact changesOnlyBy_of_eq rfl rfl rfl rfl

/-- A micro-op that no byte transfer is made of, in the micro-program of a request other than INIT, is the load of a
toggle of its shadow (R36-R38, R171). -/
theorem mem_expand_of_not_isBusOp (cfg : Config) {r : Request} {dc em : Byte} {op : MicroOp} (hinit : r.op ≠ 0x01#8)
    (hop : isBusOp op = false) (h : op ∈ expand cfg r dc em) :
    (0x10 ≤ r.op.toNat ∧ r.op.toNat ≤ 0x15 ∧ ∃ v, op = .lddc v) ∨
    (0x16 ≤ r.op.toNat ∧ r.op.toNat ≤ 0x19 ∧ ∃ v, op = .ldem v) := by
  have not_sent : ∀ xs, op ∉ sendBytes xs := fun xs hm => by simp [isBusOp_of_mem_sendBytes hm] at hop
  obtain ⟨xs, he, -⟩ | ⟨hlo, hhi, v, -, he⟩ | ⟨hlo, hhi, v, -, he⟩ := expand_cases cfg r dc em hinit <;> rw [he] at h
  · exact absurd h (not_sent xs)
  · rw [dcProgram, ← sendBytes_wcmd] at h
    exact .inl ⟨hlo, hhi, v, (List.mem_cons.mp h).resolve_right (not_sent _)⟩
  · rw [emProgram, ← sendBytes_wcmd] at h
    exact .inr ⟨hlo, hhi, v, (List.mem_cons.mp h).resolve_right (not_sent _)⟩

/-- Only INIT's micro-program holds an FSM micro-op (R171). -/
theorem fsm_not_mem_expand (cfg : Config) {r : Request} (dc em : Byte) (f : Fsm) (hinit : r.op ≠ 0x01#8) :
    .fsm f ∉ expand cfg r dc em := by
  intro h
  obtain ⟨-, -, v, hv⟩ | ⟨-, -, v, hv⟩ := mem_expand_of_not_isBusOp cfg hinit rfl h <;> cases hv

/-- Only INIT and the DisplayControl toggles hold a load of DisplayControl (R36, R38). -/
theorem lddc_mem_expand (cfg : Config) {r : Request} (dc em v : Byte) (h : .lddc v ∈ expand cfg r dc em) :
    r.op = 0x01#8 ∨ (0x10 ≤ r.op.toNat ∧ r.op.toNat ≤ 0x15) := by
  by_cases hinit : r.op = 0x01#8
  · exact .inl hinit
  · obtain ⟨hlo, hhi, -⟩ | ⟨-, -, w, hw⟩ := mem_expand_of_not_isBusOp cfg hinit rfl h
    · exact .inr ⟨hlo, hhi⟩
    · cases hw

/-- Only INIT and the EntryMode toggles hold a load of EntryMode (R37, R38). -/
theorem ldem_mem_expand (cfg : Config) {r : Request} (dc em v : Byte) (h : .ldem v ∈ expand cfg r dc em) :
    r.op = 0x01#8 ∨ (0x16 ≤ r.op.toNat ∧ r.op.toNat ≤ 0x19) := by
  by_cases hinit : r.op = 0x01#8
  · exact .inl hinit
  · obtain ⟨-, -, w, hw⟩ | ⟨hlo, hhi, -⟩ := mem_expand_of_not_isBusOp cfg hinit rfl h
    · cases hw
    · exact .inr ⟨hlo, hhi⟩

/-! ## The trace -/

theorem eventOf_toList_length_le (cfg : Config) (op : MicroOp) : (eventOf cfg op).toList.length ≤ 1 := by
  cases op <;> simp [eventOf]

/-! ## The request latch -/

/-- A sequencer step does not read the latch. -/
theorem advance_req (cfg : Config) {s t : State} (r : Request) (h : advance cfg s = .next t) :
    advance cfg { s with req := r } = .next { t with req := r } := by
  unfold advance at h ⊢
  split at h
  next hb =>
    rw [if_pos hb]
    obtain ⟨op, hop, ⟨hl, rfl⟩ | ⟨hm, rfl⟩⟩ := sequencerStep_next cfg s t h
    · rw [sequencerStep_last cfg { s with req := r } op hop hl, applyOp_req_update]
      rfl
    · rw [sequencerStep_more cfg { s with req := r } op hop hm, applyOp_req_update]
      rfl
  next hb =>
    rw [if_neg hb]
    cases h
    rfl

theorem applyAll_req (cfg : Config) (ops : List MicroOp) (s : State) (r : Request) :
    applyAll cfg ops { s with req := r } = { applyAll cfg ops s with req := r } := by
  induction ops generalizing s with
  | nil => rfl
  | cons op ops ih => rw [applyAll_cons, applyOp_req_update, ih, applyAll_cons]

/-- Acceptance does not read the latch: it replaces it, or drops the request. -/
theorem issue_req (cfg : Config) (initReq argsOk : Bool) (r' r : Request) (ops : List MicroOp) (s : State) :
    issue cfg initReq argsOk r' ops { s with req := r } = issue cfg initReq argsOk r' ops s ∨
      issue cfg initReq argsOk r' ops { s with req := r } = { issue cfg initReq argsOk r' ops s with req := r } := by
  unfold issue
  dsimp only
  split_ifs
  · exact .inr rfl
  · exact .inr rfl
  · exact .inr rfl
  · exact .inl rfl

/-- A bus word's step does not read the latch. -/
theorem step_bus_req {s t : State} {w : InstrWord} {rest : List Input} (hi : s.inputs = .word w :: rest)
    (hw : ∀ req pat, w ≠ .request req pat) (r : Request) (h : step s = .next t) :
    step { s with req := r } = .next { t with req := r } := by
  rcases Bool.eq_false_or_eq_true s.busy with hb | hb
  · rw [step_bus_busy hi hw hb] at h
    exact (step_bus_busy (s := { s with req := r }) hi hw hb).trans (advance_req _ r h)
  · cases hd : decode w with
    | none => exact nomatch (step_bus_none hi hw hb hd).symm.trans h
    | some i =>
      rw [step_bus_some hi hw hb hd, exec_bus w i hd hw] at h
      cases h
      rw [step_bus_some (s := { s with req := r }) hi hw hb hd, exec_bus w i hd hw]
      exact congrArg _ (applyAll_req Config.build _ { s with inputs := rest } r)

/-- A request word's step does not read the latch: the latch is replaced or kept. -/
theorem step_request_req {s t : State} {req : BitVec 24} {pat : Pattern} {rest : List Input}
    (hi : s.inputs = .word (.request req pat) :: rest) (r : Request) (h : step s = .next t) :
    step { s with req := r } = .next t ∨ step { s with req := r } = .next { t with req := r } := by
  cases hd : decodeRequest (splitRequest req pat) with
  | none =>
    rw [step_request_none hi hd] at h
    cases h
    rw [step_request_none (s := { s with req := r }) hi hd]
    unfold issueReserved
    dsimp only
    split_ifs <;> exact .inr rfl
  | some i =>
    rw [step_request_some hi hd, exec_request _ i hd] at h
    cases h
    rw [step_request_some (s := { s with req := r }) hi hd, exec_request _ i hd]
    exact (issue_req _ _ _ _ r _ { s with inputs := rest }).imp (congrArg _) (congrArg _)

end Sys2Proof.Machine

open Sys2Proof Sys2Proof.Machine

/-- Settles O28: a step other than RST sets at most one error bit. -/
theorem errorsAreSticky : Obligations.ErrorsAreSticky := by
  intro s t k h hr he
  cases stepped_of_step h with
  | dropped ins k' => simp [hasError_setError, he]
  | microOp | lastMicroOp => simpa using he
  | reset ins hi => simp [hi] at hr
  | idle | accepted | transferred => exact he

/-- Settles O37. -/
theorem onlyInitAndResetChangeFsm : Obligations.OnlyInitAndResetChangeFsm := by
  refine ⟨fun s t h hne => ?_, fun cfg r dc em f hop => fsm_not_mem_expand cfg dc em f hop⟩
  by_cases hr : s.inputs.head? = some .reset
  · exact .inl hr
  · obtain ⟨hb, hop⟩ := currentOp_eq_some.mp (((stepped_of_step h).changesOnlyBy hr).fsm hne)
    exact .inr ⟨hb, t.fsm, hop, rfl⟩

/-- Settles O38. -/
theorem onlyResetReleasesTheLines : Obligations.OnlyResetReleasesTheLines := by
  intro s t h hs ht
  by_contra hr
  exact absurd (((stepped_of_step h).changesOnlyBy hr).oe hs) (by simp [ht])

/-- Settles O39. -/
theorem onlyLoadsAndResetChangeShadows : Obligations.OnlyLoadsAndResetChangeShadows := by
  refine ⟨fun s t h hr => ?_, fun cfg r dc em v => ⟨lddc_mem_expand cfg dc em v, ldem_mem_expand cfg dc em v⟩⟩
  have hc := (stepped_of_step h).changesOnlyBy hr
  exact ⟨fun hne => currentOp_eq_some.mp (hc.dc hne), fun hne => currentOp_eq_some.mp (hc.em hne)⟩

/-- Settles O40: a micro-op appends its one event, a bus row those of its transfer, and no other step appends any. -/
theorem traceOnlyGrows : Obligations.TraceOnlyGrows := by
  intro s t h hr
  cases stepped_of_step h with
  | microOp ins op | lastMicroOp ins op =>
    exact ⟨_, applyOp_trace Config.build op _, .inl (eventOf_toList_length_le _ op)⟩
  | transferred ins w i rs d es hi hd hbus => exact ⟨es, rfl, .inr ⟨w, i, by simp [hi], hd, hbus⟩⟩
  | reset ins hi => simp [hi] at hr
  | idle | dropped | accepted => exact ⟨[], (List.append_nil _).symm, .inl (Nat.zero_le 1)⟩

/-- Settles O41: the latch is replaced by an accepted request and by RST, and kept by every other step. -/
theorem latchIsNeverRead : Obligations.LatchIsNeverRead := by
  intro s t r h
  obtain ⟨ins, hi⟩ : ∃ ins, s.inputs = ins := ⟨_, rfl⟩
  cases ins with
  | nil =>
    rw [step_nil hi] at h
    exact .inr ((step_nil (s := { s with req := r }) hi).trans (advance_req _ r h))
  | cons x rest =>
    cases x with
    | sequencer =>
      rw [step_sequencer hi] at h
      exact .inr ((step_sequencer (s := { s with req := r }) hi).trans (advance_req _ r h))
    | readStatus =>
      cases (step_readStatus hi).symm.trans h
      exact .inr (step_readStatus (s := { s with req := r }) hi)
    | poll =>
      rcases Bool.eq_false_or_eq_true s.busy with hb | hb
      · rw [step_poll_busy hi hb] at h
        exact .inr ((step_poll_busy (s := { s with req := r }) hi hb).trans (advance_req _ r h))
      · cases (step_poll_idle hi hb).symm.trans h
        exact .inr (step_poll_idle (s := { s with req := r }) hi hb)
    | reset =>
      cases (step_reset hi).symm.trans h
      exact .inl (step_reset (s := { s with req := r }) hi)
    | word w =>
      cases w with
      | request req pat => exact step_request_req hi r h
      | command | data | nibble => exact .inr (step_bus_req hi (by simp) r h)

/-- Settles O4. -/
theorem wordsDecodeAsWritten : Obligations.WordsDecodeAsWritten := by
  unfold Obligations.WordsDecodeAsWritten
  decide

/-- Settles O9. -/
theorem sequencerRunsOneMicroOp : Obligations.SequencerRunsOneMicroOp := by
  intro s₀ s hs
  have hstep : step s₀ = advance Config.build s := by
    obtain ⟨hi, rfl⟩ | ⟨rest, hi, rfl⟩ := hs
    · exact step_nil hi
    · exact step_sequencer hi
  refine ⟨fun hb => ?_, fun op hb hop => ?_⟩
  · simp [hstep, advance, hb]
  · rw [hstep, advance, if_pos hb]
    split_ifs with hl
    · exact sequencerStep_last _ s op hop hl
    · exact (sequencerStep_more _ s op hop hl).trans (by simp [advanceUpc])

/-- Settles O10. -/
theorem statusReadsChangeNothing : Obligations.StatusReadsChangeNothing := by
  refine fun s rest => ⟨step_readStatus, step_poll_idle, fun hi hb => ?_⟩
  rw [step_poll_busy hi hb, advance, if_pos hb]

/-- Settles O42. -/
theorem resetSetsEveryField : Obligations.ResetSetsEveryField :=
  fun _ _ hi => step_reset hi

/-- Settles O43: a field's bits are found by leaving out the fields below it, and then those above it. -/
theorem statusWordFields : Obligations.StatusWordFields := by
  refine ⟨by decide, fun s => ⟨?em, ?dc, (congrArg BitVec.toNat (a₂ := fsmCode s.fsm) ?fsm).trans ?code,
    ?_, ?_, ?_, ?_, ?_, ?_, ?_, ?_, ?d, ?zero⟩⟩
  case em | dc | fsm | d =>
    unfold statusWord
    repeat rw [BitVec.extractLsb'_append_eq_of_le (by decide)]
    rw [BitVec.extractLsb'_append_eq_of_add_le (by decide)]
    exact BitVec.extractLsb'_eq_self
  case zero =>
    unfold statusWord
    repeat rw [BitVec.extractLsb'_append_eq_of_le (by decide)]
    exact BitVec.extractLsb'_eq_self
  case code => cases s.fsm <;> rfl
  all_goals
    simp only [statusWord, errorBits, BitVec.getLsbD_append, BitVec.getLsbD_ofBool]
    simp
end

section
/-! SUPPORT. Requests run to completion: acceptance, and one step for each micro-op (R101, R141). -/

namespace Sys2Proof.Machine

/-! ## Runs -/

theorem run_succ {s t : State} (n : Nat) (h : step s = .next t) :
    Sys2Proof.core.run (n + 1) s = Sys2Proof.core.run n t := by
  have h' : Sys2Proof.core.step s = .next t := h
  simp only [Host.Core.run, h']

/-- A busy block with nothing pending completes its micro-program in as many steps as micro-ops remain (R141, R149). -/
theorem run_remaining (n : Nat) {s : State} (hs : SequencerOk s) (hb : s.busy = true) (hi : s.inputs = [])
    (hn : n = s.useq.length - s.upc.toNat) :
    Sys2Proof.core.run n s = .next (complete (finalState s)) := by
  induction n generalizing s with
  | zero =>
    obtain ⟨hlt, -⟩ := (if_pos hb).mp hs
    omega
  | succ n ih =>
    obtain ⟨hlt, hle⟩ := (if_pos hb).mp hs
    have hup := upc_succ_toNat hs hb
    have hop := List.getElem?_eq_getElem hlt
    have hstep : step s = sequencerStep Config.build s := by rw [step_nil hi, advance, if_pos hb]
    by_cases hl : (s.upc + 1#8).toNat = s.useq.length
    · obtain rfl : n = 0 := by omega
      rw [run_succ 0 (hstep.trans (sequencerStep_last _ s _ hop hl)), ← finalState_complete hs hb hop hl]
      rfl
    · rw [run_succ n (hstep.trans (sequencerStep_more _ s _ hop hl)),
        ih (sequencerOk_advanceUpc _ _ hs hb hl) (by simpa using hb) (by simpa using hi) ?_,
        finalState_advanceUpc hs hb hop, complete_advanceUpc]
      simp only [advanceUpc_useq, applyOp_useq, advanceUpc_upc, applyOp_upc]
      omega

/-! ## Requests -/

/-- The word of a request, and the instruction it decodes to. -/
theorem exists_request_of_isRequest {i : Instr} (h : isRequest i = true) :
    ∃ r, encode i = requestWord r ∧ decodeRequest r = some i := by
  cases i with
  | init | clear | home | shl | shr | curinc | curdec | setcur | wrchar | addchar | dispoff | dispon | uloff | ulon
  | blinkoff | blinkon | entdec | entinc | entshoff | entshon => exact ⟨_, rfl, rfl⟩
  | functionSet | displayControl | entryMode | clearDisplay | returnHome | shiftLeft | shiftRight | cursorInc
  | cursorDec | cgramSet | ddramSet | dataByte | syncNibble => cases h

/-- A request accepted by an idle block runs its micro-program and completes (R101, R141). -/
theorem runRequest_eq {i : Instr} {r : Request} {n : Nat} {s : State} (hw : encode i = requestWord r)
    (hd : decodeRequest r = some i) (hb : s.busy = false) (hready : r.op = 0x01#8 ∨ s.fsm = .ready)
    (hvalid : argsValid r.op r.a r.b = true) (hn : (expand Config.build r s.dc s.em).length = n) (hpos : 0 < n) :
    exec i s = .next (upload r (expand Config.build r s.dc s.em) s) ∧
    runRequest i n s = .next (complete (applyAll Config.build (expand Config.build r s.dc s.em)
      (upload r (expand Config.build r s.dc s.em) { s with inputs := [] }))) := by
  have hexec : ∀ s' : State, s'.busy = false → s'.fsm = s.fsm →
      exec i s' = .next (upload r (expand Config.build r s'.dc s'.em) s') := by
    intro s' hb' hf
    rw [exec_request r i hd, hvalid, issue_accepts _ _ r _ s' hb' (by simpa [hf] using hready)]
  refine ⟨hexec s hb rfl, ?_⟩
  have hstep : step { s with inputs := [.word (encode i)] } =
      .next (upload r (expand Config.build r s.dc s.em) { s with inputs := [] }) := by
    rw [step_request_some (req := joinRequest r) (pat := r.pat) (rest := []) (by rw [hw]; rfl)
      (by rw [splitRequest_joinRequest]; exact hd)]
    exact hexec { s with inputs := [] } hb rfl
  have hbusy : (upload r (expand Config.build r s.dc s.em) { s with inputs := [] }).busy = true := by
    rw [← hn] at hpos
    simpa using List.ne_nil_of_length_pos hpos
  exact (run_succ n hstep).trans
    (run_remaining n (sequencerOk_upload (expand_length_le _ r _ _) r _) hbusy rfl (by simp [hn]))

/-- The micro-ops of a request with in-range operands (R330). -/
theorem expand_length (cfg : Config) {r : Request} {i : Instr} (hd : decodeRequest r = some i) {dc em : Byte}
    (hdc : DcOk dc) (hem : EmOk em) (hvalid : argsValid r.op r.a r.b = true) :
    (expand cfg r dc em).length = opCount i := by
  obtain ⟨op, a, b, pat⟩ := r
  simp only [decodeRequest] at hd
  split at hd <;> cases hd
  case h_1 => rfl
  case h_2 => exact clearProgram_length hem
  case h_3 | h_4 | h_5 | h_6 | h_7 => rfl
  case h_8 => exact setcurProgram_length cfg hvalid
  case h_9 => rfl
  case h_10 => exact addcharProgram_length a pat
  all_goals
    rw [expand_toggle cfg dc em (by simp)]
    exact toggleProgram_length (by simp) (by simp) hdc hem

theorem opCount_pos {r : Request} {i : Instr} (hd : decodeRequest r = some i) : 0 < opCount i := by
  obtain ⟨op, a, b, pat⟩ := r
  simp only [decodeRequest] at hd
  split at hd <;> cases hd <;> simp [opCount]

end Sys2Proof.Machine

open Sys2Proof Sys2Proof.Machine

/-- Settles O13: CLEAR is accepted, and its two transfers change the lines and the trace only. -/
theorem clearRuns : Obligations.ClearRuns := by
  intro u s hs hem
  obtain ⟨hexec, hrun⟩ := runRequest_eq (i := .clear u) (r := requestN 0x02#8 u) rfl rfl hs.1 (.inr hs.2) rfl
    (clearProgram_length hem) (by decide)
  refine ⟨hexec, hrun.trans (congrArg _ ?_)⟩
  change complete (applyAll Config.build (wcmd 0x01#8 ++ wcmd s.em) (upload _ _ _)) = _
  rw [applyAll_append, applyAll_wcmd, applyAll_wcmd]
  simp [complete, upload, completedState, requestN, eventsOf_append]

/-- Settles O35. -/
theorem initEstablishesShadows : Obligations.InitEstablishesShadows := by
  intro u s hb
  obtain ⟨-, hrun⟩ := runRequest_eq (i := .init u) (r := requestN 0x01#8 u) (n := 107) rfl rfl hb (.inl rfl) rfl
    rfl (by decide)
  exact ⟨_, hrun, shadowsMatch_init Config.build _⟩

/-- Settles O36: the request is accepted, and its micro-program ends with matching shadows and leaves the block Ready. -/
theorem inRangeRequestKeepsShadows : Obligations.InRangeRequestKeepsShadows := by
  intro i s hreq hrange hs hdc hem hmatch
  obtain ⟨r, hw, hd⟩ := exists_request_of_isRequest hreq
  rw [inRange_eq_argsValid hd] at hrange
  obtain ⟨-, hrun⟩ := runRequest_eq hw hd hs.1 (.inr hs.2) hrange (expand_length Config.build hd hdc hem hrange)
    (opCount_pos hd)
  exact ⟨_, hrun, ⟨rfl, fsm_applyAll_expand Config.build r _ _ (s := upload r _ _) hs.2⟩,
    shadowsMatch_expand Config.build r (upload r _ _) hdc hem hrange (.inr hmatch)⟩
end

section
/-! SUPPORT. ADDCHAR on the bus, and a request of byte transfers in general: where it ends is fixed by its last byte (R150,
R214). -/

namespace Sys2Proof.Machine

/-- Byte transfers leave on the lines what the last of them drives (R150). -/
theorem applyAll_sendBytes_concat (cfg : Config) (xs : List (Bool × Byte)) (x : Bool × Byte) (s : State) :
    applyAll cfg (sendBytes (xs ++ [x])) s =
      { s with rs := x.1, en := false, d := loNibble x.2, trace := s.trace ++ eventsOf cfg (sendBytes (xs ++ [x])) } := by
  have hsplit : sendBytes (xs ++ [x]) = sendBytes xs ++ sendByte x := by simp [sendBytes]
  obtain ⟨rs, en, d, -, hxs⟩ := applyAll_sendBytes cfg xs s
  rw [hsplit, applyAll_append, hxs, applyAll_sendByte, eventsOf_append, List.append_assoc]

/-- An accepted request of byte transfers completes with its last byte on the lines, its events on the trace, and all else
as before (R141, R150). -/
theorem complete_sendBytes_concat (r : Request) (xs : List (Bool × Byte)) (x : Bool × Byte) (s : State) :
    complete (applyAll Config.build (sendBytes (xs ++ [x]))
        (upload r (sendBytes (xs ++ [x])) { s with inputs := [] })) =
      completedState r x.1 x.2 (sendBytes (xs ++ [x])) s := by
  rw [applyAll_sendBytes_concat]
  rfl

end Sys2Proof.Machine

open Sys2Proof Sys2Proof.Machine

/-- Settles O32. -/
theorem busyBlockRunsToCompletion : Obligations.BusyBlockRunsToCompletion :=
  fun _ hs hb hi => run_remaining _ hs hb hi rfl

/-- Settles O17: the request is accepted, its micro-program is the ten bytes of the glyph, and 0x80 is the last. -/
theorem addcharRuns : Obligations.AddcharRuns := by
  intro slot b pat s hslot hs ops
  have hops : ops = sendBytes (glyphBytes slot pat) := addcharProgram_eq slot pat
  have hvalid : argsValid 0x0A#8 slot b = true := decide_eq_true hslot
  obtain ⟨hexec, hrun⟩ := runRequest_eq (i := .addchar slot pat b) (r := { op := 0x0A#8, a := slot, b := b, pat := pat })
    rfl rfl hs.1 (.inr hs.2) hvalid (addcharProgram_length slot pat) (by decide)
  refine ⟨hexec, hrun.trans (congrArg _ ?_)⟩
  change complete (applyAll Config.build ops (upload _ ops _)) = _
  rw [hops]
  exact complete_sendBytes_concat _ _ (false, 0x80#8) s
end

section
/-! SUPPORT. The LCD as the observer of the bus knows it (log 9), and the addresses of its display: the rules of the address
counter, the upload of a glyph, and what INIT makes known (R72, R73, R80-R86, R210). -/

namespace Sys2Proof.Machine

/-! ## The DDRAM addresses of the display -/

/-- R210: the rows that have a base, each with its own. -/
theorem rowBase_eq_some {row base : Byte} (h : rowBase row = some base) :
    (row.toNat = 1 ∧ base.toNat = 0x7F) ∨ (row.toNat = 2 ∧ base.toNat = 0xBF) ∨ (row.toNat = 3 ∧ base.toNat = 0x93) ∨
      (row.toNat = 4 ∧ base.toNat = 0xD3) := by
  unfold rowBase at h
  split at h <;> cases h <;> decide

/-- R72: each row's addresses, one for each column, rise from that of its first column. -/
theorem ddramAddress_eq_some {row col addr : Nat} :
    ddramAddress row col = some addr ↔ (1 ≤ col ∧ col ≤ 20) ∧
      ((row = 1 ∧ addr = col - 1) ∨ (row = 2 ∧ addr = 0x40 + (col - 1)) ∨ (row = 3 ∧ addr = 0x14 + (col - 1)) ∨
        (row = 4 ∧ addr = 0x54 + (col - 1))) := by
  unfold ddramAddress
  split_ifs with hcol
  · split <;> simp_all [eq_comm]
  · simp [hcol]

/-! ## The items of the bus, in 4-bit mode -/

theorem lcdStep_cmd {l : Lcd} (v : Byte) (h : l.fourBit = true) : lcdStep l (.cmd v) = lcdCommand v l := if_pos h

theorem lcdStep_dat {l : Lcd} (v : Byte) (h : l.fourBit = true) : lcdStep l (.dat v) = lcdData v l := if_pos h

/-- INIT's four nibbles bring any LCD to 4-bit mode, and leave known what was known of its RAM and no more (R74, R81). -/
theorem lcdStep_sync (l : Lcd) :
    [.cfg, .nib 0x3#4, .nib 0x3#4, .nib 0x3#4, .nib 0x2#4].foldl lcdStep l = { l.ramOnly with fourBit := true } := rfl

/-- Counting up, AC moves to the next address of CGRAM below its end (R86). -/
theorem movePointer_cgram_up {a : Nat} (h : a < 0x3F) :
    movePointer true (.cgram (some (BitVec.ofNat 6 a))) = .cgram (some (BitVec.ofNat 6 (a + 1))) := by
  have ha : a % 64 < 0x3F := by omega
  simp [movePointer, ha, BitVec.ofNat_add]

/-- A DATA byte at a known address of CGRAM is written there, its low five bits, and AC moves as the entry mode says (R85,
R86). -/
theorem lcdData_cgram_some {l : Lcd} (v : Byte) {a : BitVec 6} {m : Byte} (hac : l.ac = some (.cgram (some a)))
    (hem : l.em = some m) :
    (lcdData v l).cgram = (a.toNat, v &&& 0x1F#8) :: l.cgram ∧
      (lcdData v l).ac = some (movePointer (m.getLsbD 1) (.cgram (some a))) := by
  simp [lcdData, hac, hem]

/-! ## The upload of a glyph -/

/-- The LCD with AC at the first address of a slot's glyph (R73). -/
def atGlyph (slot : Byte) (l : Lcd) : Lcd :=
  { l with ac := some (.cgram (some (BitVec.ofNat 6 (glyphAddress slot.toNat 0)))) }

/-- The CGRAM-set byte of slots 0 to 7 sets AC to the glyph's first address (R108, R213). -/
theorem lcdCommand_cgramCmd {slot : Byte} (h : slot.toNat ≤ 7) (l : Lcd) :
    lcdCommand (cgramCmd slot) l = atGlyph slot l := by
  have all : ∀ slot : BitVec 8, slot.toNat ≤ 7 →
      classify (cgramCmd slot) = .cgramAddress (BitVec.ofNat 6 (glyphAddress slot.toNat 0)) := by decide
  rw [lcdCommand, all slot h]
  rfl

/-- The LCD when n rows of a glyph have been sent to it. -/
def afterRows (pat : Pattern) (n : Nat) (l : Lcd) : Lcd :=
  ((List.range n).map fun i => BusItem.dat (patternRow pat i)).foldl lcdStep l

theorem afterRows_succ (pat : Pattern) (n : Nat) (l : Lcd) :
    afterRows pat (n + 1) l = lcdStep (afterRows pat n l) (.dat (patternRow pat n)) := by
  simp [afterRows, List.range_succ]

/-- Rows sent to CGRAM leave DDRAM alone, whatever the entry mode (R84). -/
theorem afterRows_cgram (pat : Pattern) (n : Nat) {l : Lcd} (hf : l.fourBit = true) (hac : ∃ a, l.ac = some (.cgram a)) :
    (afterRows pat n l).fourBit = true ∧ (afterRows pat n l).ddram = l.ddram ∧ (afterRows pat n l).em = l.em ∧
      ∃ a, (afterRows pat n l).ac = some (.cgram a) := by
  induction n with
  | zero => exact ⟨hf, rfl, rfl, hac⟩
  | succ n ih =>
    obtain ⟨hfour, hddram, hem, a, ha⟩ := ih
    obtain ⟨hddram', hfour', hem', hac'⟩ := lcdData_cgram (patternRow pat n) _ a ha
    rw [afterRows_succ, lcdStep_dat _ hfour]
    exact ⟨hfour'.trans hfour, hddram'.trans hddram, hem'.trans hem, hac'⟩

/-- ADDCHAR is the CGRAM-set byte, the rows, and the DDRAM-set byte, to an LCD in 4-bit mode (R214). -/
theorem foldl_addchar_items {l : Lcd} (dc em b : Byte) {slot : Byte} (pat : Pattern) (hf : l.fourBit = true)
    (h : slot.toNat ≤ 7) :
    (itemsOf dc em (.addchar slot pat b)).foldl lcdStep l = lcdCommand 0x80#8 (afterRows pat 8 (atGlyph slot l)) := by
  obtain ⟨hf', -⟩ := afterRows_cgram pat 8 (l := atGlyph slot l) hf ⟨_, rfl⟩
  rw [← lcdStep_cmd _ hf', ← lcdCommand_cgramCmd h, ← lcdStep_cmd _ hf]
  simp [itemsOf, afterRows, List.foldl_append]

/-- Counting up from the glyph's first address, row i is written to address i of the glyph; before the last row AC is at
the next address, after it AC may have left CGRAM's end (R73, R85, R86). -/
theorem afterRows_cells (pat : Pattern) {slot n : Nat} (hslot : slot ≤ 7) (hn : n ≤ 8) {l : Lcd} {m : Byte}
    (hf : l.fourBit = true) (hem : l.em = some m) (hup : m.getLsbD 1 = true)
    (hac : l.ac = some (.cgram (some (BitVec.ofNat 6 (glyphAddress slot 0))))) :
    (n < 8 → (afterRows pat n l).ac = some (.cgram (some (BitVec.ofNat 6 (glyphAddress slot n))))) ∧
      ∀ i < n, cellAt (afterRows pat n l).cgram (glyphAddress slot i) = some (patternRow pat i &&& 0x1F#8) := by
  induction n with
  | zero => exact ⟨fun _ => hac, by simp⟩
  | succ n ih =>
    obtain ⟨hac', hcells⟩ := ih (by omega)
    obtain ⟨hf', -, hem', -⟩ := afterRows_cgram pat n hf ⟨_, hac⟩
    obtain ⟨hcgram, hmoved⟩ := lcdData_cgram_some (patternRow pat n) (hac' (by omega)) (hem'.trans hem)
    have haddr : (BitVec.ofNat 6 (glyphAddress slot n)).toNat = glyphAddress slot n := by
      simp only [BitVec.toNat_ofNat, glyphAddress]
      omega
    rw [afterRows_succ, lcdStep_dat _ hf', hcgram, hmoved, haddr, hup]
    refine ⟨fun hlast => ?_, fun i hi => ?_⟩
    · rw [movePointer_cgram_up (by simp only [glyphAddress]; omega)]
      rfl
    · obtain rfl | hlt : i = n ∨ i < n := by omega
      · simp [cellAt]
      · have hne : glyphAddress slot n ≠ glyphAddress slot i := by simp only [glyphAddress]; omega
        simpa [cellAt, hne] using hcells i hlt

end Sys2Proof.Machine

open Sys2Proof Sys2Proof.Machine

/-- Settles O56: the rows go to CGRAM, and the byte 0x80 takes AC back to DDRAM. -/
theorem glyphUploadSparesDdram : Obligations.GlyphUploadSparesDdram := by
  intro l dc em slot b pat hf hslot l'
  have hl' : l' = lcdCommand 0x80#8 (afterRows pat 8 (atGlyph slot l)) := foldl_addchar_items dc em b pat hf hslot
  obtain ⟨-, hddram, -⟩ := afterRows_cgram pat 8 (l := atGlyph slot l) hf ⟨_, rfl⟩
  exact hl' ▸ ⟨rfl, hddram⟩

/-- Settles O49: the rows are written one after another, and the byte 0x80 leaves CGRAM as it is. -/
theorem glyphUploadReachesCgram : Obligations.GlyphUploadReachesCgram := by
  intro l dc em m slot b pat hf hem hup hslot l'
  have hl' : l' = lcdCommand 0x80#8 (afterRows pat 8 (atGlyph slot l)) := foldl_addchar_items dc em b pat hf hslot
  obtain ⟨hac, hddram⟩ := glyphUploadSparesDdram l dc em slot b pat hf hslot
  obtain ⟨-, hcells⟩ := afterRows_cells pat hslot le_rfl (l := atGlyph slot l) hf hem hup rfl
  exact ⟨hac, hddram, hl' ▸ hcells⟩

/-- Settles O46. -/
theorem displayPositions : Obligations.DisplayPositions := by
  refine ⟨fun row col base _ hcol hbase => ?_, fun r c r' c' addr h h' => ?_, fun c => ?_⟩
  · obtain ⟨hlo, hhi⟩ : 1 ≤ col.toNat ∧ col.toNat ≤ 20 := by simpa [colValid] using hcol
    have hrow := rowBase_eq_some hbase
    have hsum : (wrapAdd col base).toNat = col.toNat + base.toNat := BitVec.toNat_add_of_lt (by omega)
    exact ⟨col.toNat + base.toNat - 0x80, ddramAddress_eq_some.mpr ⟨⟨hlo, hhi⟩, by omega⟩, by omega, by omega⟩
  · rw [ddramAddress_eq_some] at h h'
    omega
  · simp [ddramAddress]

/-- Settles O50: the nibbles synchronise the LCD, and each COMMAND byte sets what its class sets. -/
theorem initBringsUpTheLcd : Obligations.InitBringsUpTheLcd := by
  intro l dc em u
  change [.cmd 0x28#8, .cmd 0x0C#8, .cmd 0x06#8, .cmd 0x01#8, .cmd 0x06#8].foldl lcdStep
    ([.cfg, .nib 0x3#4, .nib 0x3#4, .nib 0x3#4, .nib 0x2#4].foldl lcdStep l) = _
  rw [lcdStep_sync]
  rfl
end

section
/-! SUPPORT. The encoder and the decoder are inverse, and what that says of a step with a word at the head of the inputs
(R100-R107). -/

namespace Sys2Proof.Machine

/-! ## Decoding what is encoded -/

/-- A request decodes from its own word (R100-R104). -/
theorem decode_encode_of_isRequest {i : Instr} (h : isRequest i = true) : decode (encode i) = some i := by
  obtain ⟨r, hw, hd⟩ := exists_request_of_isRequest h
  rw [hw, decode_requestWord, hd]

theorem decodeCommand_displayControlByte (d c b : Bool) :
    decodeCommand (displayControlByte d c b) = some (.displayControl d c b) := by
  revert d c b
  decide

theorem decodeCommand_entryModeByte (id s : Bool) : decodeCommand (entryModeByte id s) = some (.entryMode id s) := by
  revert id s
  decide

theorem decodeCommand_cgramSetByte (addr : BitVec 6) : decodeCommand (cgramSetByte addr) = some (.cgramSet addr) := by
  revert addr
  decide

theorem decodeCommand_ddramSetByte (addr : BitVec 7) : decodeCommand (ddramSetByte addr) = some (.ddramSet addr) := by
  revert addr
  decide

/-- A bus row decodes from its own transfer (R107, R109). -/
theorem decode_encode_bus {i : Instr} (hbus : isRequest i = false) (hwf : i.wellFormed = true) :
    decode (encode i) = some i := by
  cases i with
  | displayControl d c b => exact decodeCommand_displayControlByte d c b
  | entryMode id s => exact decodeCommand_entryModeByte id s
  | cgramSet addr => exact decodeCommand_cgramSetByte addr
  | ddramSet addr => exact decodeCommand_ddramSetByte addr
  | syncNibble n => exact if_pos (by simpa [Instr.wellFormed] using hwf)
  | functionSet | clearDisplay | returnHome | shiftLeft | shiftRight | cursorInc | cursorDec | dataByte => rfl
  | init | clear | home | shl | shr | curinc | curdec | setcur | wrchar | addchar | dispoff | dispon | uloff | ulon
  | blinkoff | blinkon | entdec | entinc | entshoff | entshon => cases hbus

/-! ## Encoding what is decoded -/

/-- The word of a request is its own, with the ignored fields (R102). -/
theorem encode_of_decodeRequest {r : Request} {i : Instr} (h : decodeRequest r = some i) :
    encode i = requestWord r ∧ i.wellFormed = true := by
  obtain ⟨op, a, b, pat⟩ := r
  simp only [decodeRequest] at h
  split at h <;> cases h <;> exact ⟨rfl, rfl⟩

theorem isRequest_of_encode {i : Instr} {r : Request} (h : encode i = requestWord r) : isRequest i = true := by
  simp [isRequest, h, requestWord]

theorem requestWord_splitRequest (req : BitVec 24) (pat : Pattern) :
    requestWord (splitRequest req pat) = .request req pat := by
  rw [requestWord, joinRequest_splitRequest, splitRequest_pat]

theorem encode_of_decodeCommand {v : Byte} {i : Instr} (h : decodeCommand v = some i) :
    encode i = .command v ∧ i.wellFormed = true := by
  have all : ∀ v : BitVec 8, (decodeCommand v).all (fun i => encode i == .command v && i.wellFormed) = true := by
    decide
  simpa [h] using all v

theorem encode_of_decodeNibble {n : Nibble} {i : Instr} (h : decodeNibble n = some i) :
    encode i = .nibble n ∧ i.wellFormed = true := by
  unfold decodeNibble at h
  split_ifs at h with hn
  cases h
  exact ⟨rfl, by simpa [Instr.wellFormed] using hn⟩

/-! ## The reserved opcodes -/

/-- The opcode is REQ[7:0] (R100). -/
theorem splitRequest_op_toNat (req : BitVec 24) (pat : Pattern) :
    (splitRequest req pat).op.toNat = req.toNat % 256 := by
  simp [splitRequest, BitVec.extractLsb'_toNat]

theorem reservedOp_iff (op : Byte) :
    reservedOp op = true ↔ op.toNat = 0x00 ∨ (0x0B ≤ op.toNat ∧ op.toNat ≤ 0x0F) ∨ 0x1A ≤ op.toNat := by
  simp [reservedOp, or_assoc]

end Sys2Proof.Machine

open Sys2Proof Sys2Proof.Machine

/-- Settles O1: a request's fields are joined and split again; a bus row's fields are read back from its byte. -/
theorem decodeEncodeRoundTrip : Obligations.DecodeEncodeRoundTrip := by
  intro i hwf
  rcases Bool.eq_false_or_eq_true (isRequest i) with hreq | hbus
  · exact decode_encode_of_isRequest hreq
  · exact decode_encode_bus hbus hwf

/-- Settles O2, by the kind of word. -/
theorem encodeDecodeRoundTrip : Obligations.EncodeDecodeRoundTrip := by
  intro w i h
  cases w with
  | request req pat => exact requestWord_splitRequest req pat ▸ encode_of_decodeRequest h
  | command v => exact encode_of_decodeCommand h
  | data v =>
    cases h
    exact ⟨rfl, rfl⟩
  | nibble n => exact encode_of_decodeNibble h

/-- Settles O3. -/
theorem reservedOpcodesAreIllegal : Obligations.ReservedOpcodesAreIllegal := by
  refine fun req pat s rest => ⟨?_, fun hi hb hd => ?_⟩
  · rw [← splitRequest_op_toNat req pat, ← reservedOp_iff]
    exact decodeRequest_none _
  · rw [step_request_none hi hd]
    simp [issueReserved, hb, raise, setError]

/-- Settles O8: a request word's instruction is a request, and a bus word's is none. -/
theorem stepRunsTheDecodedInstruction : Obligations.StepRunsTheDecodedInstruction := by
  intro s w i rest hi hd
  cases w with
  | request req pat =>
    obtain ⟨hw, -⟩ := encode_of_decodeRequest hd
    exact ⟨fun _ => step_request_some hi hd, fun hbus => by simp [isRequest_of_encode hw] at hbus⟩
  | command | data | nibble =>
    have hbus := isRequest_of_decode_bus hd (by simp)
    refine ⟨fun h => step_bus_some hi (by simp) (h.resolve_left (by simp [hbus])) hd, fun _ hb => ?_⟩
    rw [step_bus_busy hi (by simp) hb, advance, if_pos hb]
end

section
/-! SUPPORT. Acceptance: what it reads of a request, what it leaves of a dropped one, and which micro-programs are empty
(R101, R102). -/

namespace Sys2Proof.Machine

/-! ## The ignored fields -/

/-- Whatever acceptance does with a request, the request itself reaches the latch at most. -/
theorem issue_request (cfg : Config) (initReq argsOk : Bool) (r r' : Request) (ops : List MicroOp) (s : State) :
    ∃ q, issue cfg initReq argsOk r' ops s = { issue cfg initReq argsOk r ops s with req := q } := by
  unfold issue
  split_ifs
  · exact ⟨s.req, rfl⟩
  · exact ⟨s.req, rfl⟩
  · exact ⟨s.req, rfl⟩
  · exact ⟨r', rfl⟩

theorem decodeRequest_of_encode {i : Instr} {r : Request} (h : encode i = requestWord r) :
    decodeRequest r = some i := by
  rw [← decode_requestWord, ← h]
  exact decode_encode_of_isRequest (isRequest_of_encode h)

/-- Two requests with one opcode, one range check and one micro-program differ in the latch at most. -/
theorem exec_differs_in_latch {i i' : Instr} {r r' : Request} (hw : encode i = requestWord r)
    (hw' : encode i' = requestWord r') (hop : r'.op = r.op) (hargs : argsValid r'.op r'.a r'.b = argsValid r.op r.a r.b)
    (hops : ∀ dc em, expand Config.build r' dc em = expand Config.build r dc em) (s : State) :
    ∃ t q, exec i s = .next t ∧ exec i' s = .next { t with req := q } := by
  obtain ⟨q, hq⟩ := issue_request Config.build (r.op == 0x01#8) (argsValid r.op r.a r.b) r r'
    (expand Config.build r s.dc s.em) s
  refine ⟨_, q, exec_request r i (decodeRequest_of_encode hw) s, ?_⟩
  rw [exec_request r' i' (decodeRequest_of_encode hw'), hargs, hops, hop, hq]

/-- The requests of format N, each with its opcode: none is one of the three that read an operand (R102, R104). -/
theorem exists_opcode_of_formatN {c : Unread → Instr}
    (h : c ∈ [Instr.init, Instr.clear, Instr.home, Instr.shl, Instr.shr, Instr.curinc, Instr.curdec, Instr.dispoff,
      Instr.dispon, Instr.uloff, Instr.ulon, Instr.blinkoff, Instr.blinkon, Instr.entdec, Instr.entinc,
      Instr.entshoff, Instr.entshon]) :
    ∃ op ∉ [0x08#8, 0x09#8, 0x0A#8], ∀ u, encode (c u) = requestWord (requestN op u) := by
  simp only [List.mem_cons, List.not_mem_nil, or_false] at h
  rcases h with rfl | rfl | rfl | rfl | rfl | rfl | rfl | rfl | rfl | rfl | rfl | rfl | rfl | rfl | rfl | rfl | rfl <;>
    exact ⟨_, by decide, fun _ => rfl⟩

/-- Any opcode but those of SETCUR, WRCHAR and ADDCHAR has a micro-program that reads no operand (R140). -/
theorem expand_requestN (cfg : Config) {op : Byte} (h : op ∉ [0x08#8, 0x09#8, 0x0A#8]) (u u' : Unread)
    (dc em : Byte) : expand cfg (requestN op u) dc em = expand cfg (requestN op u') dc em := by
  simp only [List.mem_cons, List.not_mem_nil, or_false, not_or] at h
  obtain ⟨h8, h9, hA⟩ := h
  unfold expand requestN
  dsimp only
  split
  case h_8 => exact absurd rfl h8
  case h_9 => exact absurd rfl h9
  case h_10 => exact absurd rfl hA
  all_goals rfl

/-- Only SETCUR and ADDCHAR have a range check (R103). -/
theorem argsValid_of_formatN {op : Byte} (h : op ∉ [0x08#8, 0x09#8, 0x0A#8]) (a b : Byte) :
    argsValid op a b = true := by
  simp only [List.mem_cons, List.not_mem_nil, or_false, not_or] at h
  obtain ⟨h8, -, hA⟩ := h
  simp [argsValid, h8, hA]

/-! ## The four checks -/

theorem acceptance_reserved (cfg : Config) {r : Request} (h : reservedOp r.op = true) (s : State) :
    acceptance cfg r s = issueReserved s := by
  simp [acceptance, issueReserved, h]

/-- For an opcode with an instruction the checks of R101 are those of acceptance. -/
theorem acceptance_eq_issue (cfg : Config) {r : Request} (h : reservedOp r.op = false) (s : State) :
    acceptance cfg r s =
      issue cfg (r.op == 0x01#8) (argsValid r.op r.a r.b) r (expand cfg r s.dc s.em) s := by
  simp only [acceptance, issue, h]
  simp [and_comm]

/-! ## The empty micro-program -/

theorem wcmd_ne_nil (v : Byte) : wcmd v ≠ [] := List.cons_ne_nil _ _

theorem wdata_ne_nil (v : Byte) : wdata v ≠ [] := List.cons_ne_nil _ _

theorem cursorBase_eq_none (cfg : Config) (row : Byte) :
    cursorBase cfg row = none ↔ ¬ (1 ≤ row.toNat ∧ row.toNat ≤ 4) ∧ cfg.rowBaseInvalid row = none := by
  have all : ∀ row : BitVec 8, rowBase row = none ↔ ¬ (1 ≤ row.toNat ∧ row.toNat ≤ 4) := by decide
  rw [← all row]
  cases h : rowBase row <;> simp [cursorBase, h]

theorem setcurProgram_eq_nil (cfg : Config) (row col : Byte) :
    setcurProgram cfg row col = [] ↔ cursorBase cfg row = none := by
  unfold setcurProgram
  split
  next h => simp [h]
  next base h => simp [h, wcmd_ne_nil]

/-- A toggle that is not reserved loads its shadow (R230). -/
theorem toggleProgram_ne_nil {op : Byte} (dc em : Byte) (h : op.extractLsb' 4 4 = 0x1#4) (hr : reservedOp op = false) :
    toggleProgram op dc em ≠ [] := by
  obtain ⟨hlo, -⟩ | ⟨-, -, v, -, he⟩ | ⟨-, -, v, -, he⟩ := toggleProgram_cases op dc em h
  · exact absurd ((reservedOp_iff op).mpr (.inr (.inr hlo))) (by simp [hr])
  · exact he ▸ List.cons_ne_nil _ _
  · exact he ▸ List.cons_ne_nil _ _

theorem exists_instr_of_not_reserved {r : Request} (h : reservedOp r.op = false) : ∃ i, decodeRequest r = some i := by
  rw [← Option.ne_none_iff_exists', Ne, decodeRequest_none]
  simp [h]

/-- Of the opcodes with an instruction only SETCUR's can have an empty micro-program (R101, R212). -/
theorem expand_ne_nil (cfg : Config) {r : Request} (dc em : Byte) (hr : reservedOp r.op = false) (h : r.op ≠ 0x08#8) :
    expand cfg r dc em ≠ [] := by
  obtain ⟨i, hd⟩ := exists_instr_of_not_reserved hr
  obtain ⟨op, a, b, pat⟩ := r
  simp only [decodeRequest] at hd
  split at hd <;> cases hd
  case h_1 => exact List.cons_ne_nil _ _
  case h_2 => exact List.append_ne_nil_of_left_ne_nil (wcmd_ne_nil _) _
  case h_3 | h_4 | h_5 | h_6 | h_7 => exact wcmd_ne_nil _
  case h_8 => exact absurd rfl h
  case h_9 => exact wdata_ne_nil _
  case h_10 => exact List.ne_nil_of_length_eq_add_one (addcharProgram_length a pat)
  all_goals
    rw [expand_toggle cfg dc em (by simp)]
    exact toggleProgram_ne_nil dc em (by simp) hr

theorem expand_setcur (cfg : Config) {r : Request} (dc em : Byte) (h : r.op = 0x08#8) :
    expand cfg r dc em = setcurProgram cfg r.a r.b := by
  obtain ⟨op, a, b, pat⟩ := r
  obtain rfl : op = 0x08#8 := h
  rfl

/-! ## Requests other than INIT -/

/-- A request that decodes as another than INIT has another opcode (R104). -/
theorem op_ne_init {r : Request} {i : Instr} (hd : decodeRequest r = some i) (h : ∀ u, i ≠ .init u) :
    r.op ≠ 0x01#8 := by
  obtain ⟨op, a, b, pat⟩ := r
  rintro (rfl : op = 0x01#8)
  cases hd
  exact h _ rfl

end Sys2Proof.Machine

open Sys2Proof Sys2Proof.Machine

/-- Settles O5: format by format, the fields ignored are read by neither the range check nor the micro-program. -/
theorem ignoredFieldsReachOnlyTheLatch : Obligations.IgnoredFieldsReachOnlyTheLatch := by
  refine fun s => ⟨fun c hc u u' => ?_, fun x y b b' pat pat' => ⟨?_, ?_, ?_⟩⟩
  · obtain ⟨op, hop, hw⟩ := exists_opcode_of_formatN hc
    have hargs : argsValid op u'.a u'.b = argsValid op u.a u.b := by
      rw [argsValid_of_formatN hop, argsValid_of_formatN hop]
    exact exec_differs_in_latch (hw u) (hw u') rfl hargs (expand_requestN _ hop u' u) s
  · exact exec_differs_in_latch (i := .setcur x y pat) (i' := .setcur x y pat') rfl rfl rfl rfl (fun _ _ => rfl) s
  · exact exec_differs_in_latch (i := .wrchar x b pat) (i' := .wrchar x b' pat') rfl rfl rfl rfl (fun _ _ => rfl) s
  · exact exec_differs_in_latch (i := .addchar x pat b) (i' := .addchar x pat b') rfl rfl rfl rfl (fun _ _ => rfl) s

/-- Settles O6: a request word's step is acceptance of its instruction, or the drop of a reserved opcode. -/
theorem acceptanceFollowsTheFourChecks : Obligations.AcceptanceFollowsTheFourChecks := by
  refine ⟨fun s req pat rest hi => ?_, fun cfg r dc em hr => ?_⟩
  · cases hd : decodeRequest (splitRequest req pat) with
    | none => rw [step_request_none hi hd, acceptance_reserved _ ((decodeRequest_none _).mp hd)]
    | some i =>
      have hr : reservedOp (splitRequest req pat).op = false := by
        rw [← Bool.not_eq_true, ← decodeRequest_none, hd]
        exact Option.some_ne_none i
      rw [step_request_some hi hd, exec_request _ i hd, acceptance_eq_issue _ hr]
  · by_cases hop : r.op = 0x08#8
    · rw [expand_setcur cfg dc em hop, setcurProgram_eq_nil, cursorBase_eq_none]
      simp [hop]
    · simp [hop, expand_ne_nil cfg dc em hr hop]

/-- Settles O7, by the four outcomes of acceptance. -/
theorem requestIsDroppedOrWhole : Obligations.RequestIsDroppedOrWhole := by
  intro i s hreq
  obtain ⟨r, hw, hd⟩ := exists_request_of_isRequest hreq
  rw [exec_request r i hd, hw]
  rcases issue_cases Config.build (r.op == 0x01#8) (argsValid r.op r.a r.b) r (expand Config.build r s.dc s.em) s with
    ⟨-, he⟩ | ⟨-, -, -, he⟩ | ⟨-, -, -, -, he⟩ | ⟨-, -, -, he⟩ <;> rw [he]
  · exact .inl ⟨.ovr, rfl⟩
  · exact .inl ⟨.nr, rfl⟩
  · exact .inl ⟨.arg, rfl⟩
  · refine .inr ⟨expand Config.build r s.dc s.em, ?_⟩
    simp only [requestWord, splitRequest_joinRequest, upload]

/-- Settles O27: an idle block checks the initialization state first; and an idle block that meets the invariant is at
rest, Ready or Uninitialized. -/
theorem notReadyRequestIsDroppedWithNr : Obligations.NotReadyRequestIsDroppedWithNr := by
  refine fun i s hreq hinit hb hf => ⟨?_, fun ⟨hseq, _, _, _, hbound⟩ => ?_⟩
  · obtain ⟨r, -, hd⟩ := exists_request_of_isRequest hreq
    rw [exec_request r i hd]
    simp [issue, hb, hf, op_ne_init hd hinit, raise, setError]
  · rw [boundaryOk_iff, finalState_of_useq_nil (useq_nil_of_idle hseq hb)] at hbound
    obtain ⟨-, hrest⟩ := hbound
    exact hrest.resolve_right fun hready => hf hready.1
end

section
/-! SUPPORT. The bus rows, and a request as the bus rows and the items on the bus that its bytes are (R107, R142-R145,
R190-R216, R230). -/

namespace Sys2Proof.Machine

/-! ## Bus rows -/

/-- The word of a byte transfer: a DATA byte for true, a COMMAND byte for false. -/
def busWord (x : Bool × Byte) : InstrWord := if x.1 then .data x.2 else .command x.2

/-- A row whose word is a byte transfer runs that transfer whole. -/
theorem exec_of_encode_busWord {i : Instr} {x : Bool × Byte} (h : encode i = busWord x) (s : State) :
    exec i s = .next (applyAll Config.build (sendByte x) s) := by
  obtain ⟨m, v⟩ := x
  have hbus : isRequest i = false := by cases m <;> simp [isRequest, h, busWord]
  have hwf : i.wellFormed = true := by
    cases i with
    | syncNibble => cases m <;> simp [encode, busWord] at h
    | _ => rfl
  have hd := decode_encode_bus hbus hwf
  rw [h] at hd
  rw [exec_bus _ i hd (by cases m <;> simp [busWord])]
  cases m <;> rfl

theorem displayControlByte_eq_or (d c b : Bool) : displayControlByte d c b =
    0x08#8 ||| (if d then 0x04#8 else 0#8) ||| (if c then 0x02#8 else 0#8) ||| (if b then 0x01#8 else 0#8) := by
  revert d c b
  decide

theorem entryModeByte_eq_or (id sh : Bool) :
    entryModeByte id sh = 0x04#8 ||| (if id then 0x02#8 else 0#8) ||| (if sh then 0x01#8 else 0#8) := by
  revert id sh
  decide

theorem cgramSetByte_eq_add (addr : BitVec 6) : cgramSetByte addr = 0x40#8 + addr.zeroExtend 8 := by
  revert addr
  decide

theorem ddramSetByte_eq_add (addr : BitVec 7) : ddramSetByte addr = 0x80#8 + addr.zeroExtend 8 := by
  revert addr
  decide

/-- Rows whose words are byte transfers, executed in order, are those transfers one after another. -/
theorem execList_eq_sendBytes {is : List Instr} {xs : List (Bool × Byte)} (h : is.map encode = xs.map busWord)
    (s : State) : execList is s = .next (applyAll Config.build (sendBytes xs) s) := by
  induction is generalizing xs s with
  | nil =>
    obtain rfl : xs = [] := by simpa using h.symm
    rfl
  | cons i is ih =>
    cases xs with
    | nil => cases h
    | cons x xs =>
      obtain ⟨hx, hxs⟩ := List.cons.inj h
      rw [execList, exec_of_encode_busWord hx, sendBytes_cons, applyAll_append]
      exact ih hxs _

/-! ## The lines and the trace apart -/

/-- The two states agree on all that a byte transfer reads or writes, on OE, the initialization state and the errors: they
may differ in the sequencer, the latch, the shadows and the inputs. -/
structure SameBus (s t : State) : Prop where
  fsm : t.fsm = s.fsm
  rs : t.rs = s.rs
  en : t.en = s.en
  d : t.d = s.d
  oe : t.oe = s.oe
  err : t.err = s.err
  trace : t.trace = s.trace

theorem SameBus.refl (s : State) : SameBus s s := ⟨rfl, rfl, rfl, rfl, rfl, rfl, rfl⟩

theorem SameBus.lddc (v : Byte) (cfg : Config) (s : State) : SameBus s (applyOp cfg (.lddc v) s) :=
  ⟨rfl, rfl, rfl, rfl, rfl, rfl, rfl⟩

theorem SameBus.ldem (v : Byte) (cfg : Config) (s : State) : SameBus s (applyOp cfg (.ldem v) s) :=
  ⟨rfl, rfl, rfl, rfl, rfl, rfl, rfl⟩

theorem SameBus.upload (r : Request) (ops : List MicroOp) (s : State) :
    SameBus s (upload r ops { s with inputs := [] }) :=
  ⟨rfl, rfl, rfl, rfl, rfl, rfl, rfl⟩

theorem SameBus.complete (s : State) : SameBus s (complete s) := ⟨rfl, rfl, rfl, rfl, rfl, rfl, rfl⟩

theorem SameBus.trans {s t u : State} (h : SameBus s t) (h' : SameBus t u) : SameBus s u :=
  ⟨h'.fsm.trans h.fsm, h'.rs.trans h.rs, h'.en.trans h.en, h'.d.trans h.d, h'.oe.trans h.oe, h'.err.trans h.err,
    h'.trace.trans h.trace⟩

/-- A micro-op does the same to the lines and the trace of states that agree on them. -/
theorem SameBus.applyOp {s t : State} (h : SameBus s t) (cfg : Config) (op : MicroOp) :
    SameBus (applyOp cfg op s) (applyOp cfg op t) := by
  obtain ⟨hfsm, hrs, hen, hd, hoe, herr, htrace⟩ := h
  cases op <;> constructor <;> simp [Machine.applyOp, hfsm, hrs, hen, hd, hoe, herr, htrace]

theorem SameBus.applyAll {s t : State} (h : SameBus s t) (cfg : Config) (ops : List MicroOp) :
    SameBus (applyAll cfg ops s) (applyAll cfg ops t) := by
  induction ops generalizing s t with
  | nil => exact h
  | cons op ops ih => exact ih (h.applyOp cfg op)

/-- What states that agree on the lines and the trace may differ in. -/
theorem SameBus.eq_update {s t : State} (h : SameBus s t) (hb : t.busy = s.busy) :
    t = { s with upc := t.upc, useq := t.useq, req := t.req, dc := t.dc, em := t.em, inputs := t.inputs } := by
  obtain ⟨hfsm, hrs, hen, hd, hoe, herr, htrace⟩ := h
  cases t
  simp_all

/-! ## A request's bytes -/

/-- The micro-program is that of a request with the bytes xs: loads of shadows, which do nothing to the lines and the
trace, and the transfers of xs; and xs are the request's items, and its bus rows. -/
structure SendsBytes (dc em : Byte) (i : Instr) (ops : List MicroOp) (xs : List (Bool × Byte)) : Prop where
  program : ∃ loads, ops = loads ++ sendBytes xs ∧ ∀ cfg s, SameBus s (applyAll cfg loads s)
  items : itemsOf dc em i = xs.map itemOf
  rows : (transfersOf dc em i).map encode = xs.map busWord

theorem sendsBytes_of_no_load {dc em : Byte} {i : Instr} {ops : List MicroOp} {xs : List (Bool × Byte)}
    (hops : ops = sendBytes xs) (hitems : itemsOf dc em i = xs.map itemOf)
    (hrows : (transfersOf dc em i).map encode = xs.map busWord) : SendsBytes dc em i ops xs :=
  ⟨⟨[], hops, fun _ s => .refl s⟩, hitems, hrows⟩

section OneByte

variable {dc em v w : Byte} {i : Instr} {ops : List MicroOp} (hitems : itemsOf dc em i = [.cmd v])
  (hrows : (transfersOf dc em i).map encode = [.command w]) (hw : w = v)

include hitems hrows hw

theorem exists_sendsBytes_wcmd (hops : ops = wcmd v) : ∃ xs, SendsBytes dc em i ops xs := by
  subst hw
  exact ⟨[(false, w)], sendsBytes_of_no_load (hops.trans (sendBytes_wcmd w).symm) hitems hrows⟩

theorem exists_sendsBytes_load {load : MicroOp} (hload : ∀ cfg s, SameBus s (applyOp cfg load s))
    (hops : ops = load :: wcmd v) : ∃ xs, SendsBytes dc em i ops xs := by
  subst hops hw
  rw [← sendBytes_wcmd]
  exact ⟨_, ⟨[load], rfl, hload⟩, hitems, hrows⟩

end OneByte

/-- A DisplayControl shadow with one bit written is the byte of the row with that bit (R36, R230). -/
theorem displayControlByte_toggle {dc : Byte} (h : DcOk dc) :
    displayControlByte false (dc.getLsbD 1) (dc.getLsbD 0) = dc &&& ~~~0x04#8 ∧
    displayControlByte true (dc.getLsbD 1) (dc.getLsbD 0) = dc ||| 0x04#8 ∧
    displayControlByte (dc.getLsbD 2) false (dc.getLsbD 0) = dc &&& ~~~0x02#8 ∧
    displayControlByte (dc.getLsbD 2) true (dc.getLsbD 0) = dc ||| 0x02#8 ∧
    displayControlByte (dc.getLsbD 2) (dc.getLsbD 1) false = dc &&& ~~~0x01#8 ∧
    displayControlByte (dc.getLsbD 2) (dc.getLsbD 1) true = dc ||| 0x01#8 := by
  revert dc
  decide

/-- An EntryMode shadow is the byte of its row, and with one bit written that of the row with that bit (R37, R230). -/
theorem entryModeByte_toggle {em : Byte} (h : EmOk em) :
    entryModeByte (em.getLsbD 1) (em.getLsbD 0) = em ∧
    entryModeByte false (em.getLsbD 0) = em &&& ~~~0x02#8 ∧ entryModeByte true (em.getLsbD 0) = em ||| 0x02#8 ∧
    entryModeByte (em.getLsbD 1) false = em &&& ~~~0x01#8 ∧ entryModeByte (em.getLsbD 1) true = em ||| 0x01#8 := by
  revert em
  decide

theorem ddramSetByte_extract {v : Byte} (h : 0x80 ≤ v.toNat) : ddramSetByte (v.extractLsb' 0 7) = v := by
  have all : ∀ v : BitVec 8, 0x80 ≤ v.toNat → ddramSetByte (v.extractLsb' 0 7) = v := by decide
  exact all v h

theorem cgramSetByte_extract {slot : Byte} (h : slotValid slot = true) :
    cgramSetByte ((cgramCmd slot).extractLsb' 0 6) = cgramCmd slot := by
  have all : ∀ slot : BitVec 8, slotValid slot = true →
      cgramSetByte ((cgramCmd slot).extractLsb' 0 6) = cgramCmd slot := by decide
  exact all slot h

/-- A row in range has a base of the table's (R210). -/
theorem rowBase_of_inRange {row col : Byte} (h : argsValid 0x08#8 row col = true) :
    ∃ base, rowBase row = some base := by
  have all : ∀ row : BitVec 8, rowValid row = true → (rowBase row).isSome = true := by decide
  obtain ⟨hrow, -⟩ : rowValid row = true ∧ colValid col = true := by simpa [argsValid] using h
  exact Option.isSome_iff_exists.mp (all row hrow)

theorem exists_sendsBytes_setcur (cfg : Config) (dc em : Byte) {row col : Byte} (pat : Pattern)
    (h : argsValid 0x08#8 row col = true) :
    ∃ xs, SendsBytes dc em (.setcur row col pat) (setcurProgram cfg row col) xs := by
  obtain ⟨base, hbase⟩ := rowBase_of_inRange h
  have hcursor : cursorBase cfg row = some base := by simp [cursorBase, hbase]
  obtain ⟨base', hbase', hhigh⟩ := cursorBase_inRange cfg h
  obtain rfl : base' = base := Option.some.inj (hbase'.symm.trans hcursor)
  exact exists_sendsBytes_wcmd (by simp [itemsOf, hbase]) (by simp [transfersOf, hbase, encode])
    (ddramSetByte_extract hhigh) (by simp [setcurProgram, hcursor])

/-- CLEAR's bytes are 0x01 and the EntryMode shadow (R190). -/
theorem exists_sendsBytes_clear (dc : Byte) {em : Byte} (u : Unread) (h : EmOk em) :
    ∃ xs, SendsBytes dc em (.clear u) (clearProgram em) xs := by
  have hprogram : clearProgram em = sendBytes [(false, 0x01#8), (false, em)] := by
    simp [clearProgram, sendBytes, sendByte]
  obtain ⟨hem, -⟩ := entryModeByte_toggle h
  exact ⟨_, sendsBytes_of_no_load hprogram rfl (congrArg (fun v => [InstrWord.command 0x01#8, .command v]) hem)⟩

theorem sendsBytes_addchar (dc em b : Byte) {slot : Byte} (pat : Pattern) (h : slotValid slot = true) :
    SendsBytes dc em (.addchar slot pat b) (addcharProgram slot pat) (glyphBytes slot pat) := by
  refine sendsBytes_of_no_load (addcharProgram_eq slot pat) ?_ ?_
  · simp [itemsOf, glyphBytes, itemOf]
  · simp [transfersOf, glyphBytes, encode, busWord, cgramSetByte_extract h, ddramSetByte]

/-- A request other than INIT, with operands in range, sends its bytes (R190-R216, R230). -/
theorem exists_sendsBytes (cfg : Config) {r : Request} {i : Instr} (hd : decodeRequest r = some i)
    (hinit : ∀ u, i ≠ .init u) (hvalid : argsValid r.op r.a r.b = true) {dc em : Byte} (hdc : DcOk dc)
    (hem : EmOk em) : ∃ xs, SendsBytes dc em i (expand cfg r dc em) xs := by
  obtain ⟨hd0, hd1, hu0, hu1, hb0, hb1⟩ := displayControlByte_toggle hdc
  obtain ⟨hall, hi0, hi1, hs0, hs1⟩ := entryModeByte_toggle hem
  obtain ⟨p10, p11, p12, p13, p14, p15, p16, p17, p18, p19⟩ := toggleProgram_each dc em
  obtain ⟨op, a, b, pat⟩ := r
  have toggle : ∀ op : Byte, op.extractLsb' 4 4 = 0x1#4 →
      expand cfg ⟨op, a, b, pat⟩ dc em = toggleProgram op dc em := fun op h => expand_toggle cfg dc em h
  simp only [decodeRequest] at hd
  split at hd <;> cases hd
  case h_1 => exact absurd rfl (hinit _)
  case h_2 => exact exists_sendsBytes_clear dc _ hem
  case h_3 | h_4 | h_5 | h_6 | h_7 => exact exists_sendsBytes_wcmd rfl rfl rfl rfl
  case h_8 => exact exists_sendsBytes_setcur cfg dc em pat hvalid
  case h_9 => exact ⟨[(true, a)], sendsBytes_of_no_load (sendBytes_wdata a).symm rfl rfl⟩
  case h_10 => exact ⟨_, sendsBytes_addchar dc em b pat hvalid⟩
  case h_11 => exact exists_sendsBytes_load rfl rfl hd0 (.lddc _) ((toggle 0x10#8 rfl).trans p10)
  case h_12 => exact exists_sendsBytes_load rfl rfl hd1 (.lddc _) ((toggle 0x11#8 rfl).trans p11)
  case h_13 => exact exists_sendsBytes_load rfl rfl hu0 (.lddc _) ((toggle 0x12#8 rfl).trans p12)
  case h_14 => exact exists_sendsBytes_load rfl rfl hu1 (.lddc _) ((toggle 0x13#8 rfl).trans p13)
  case h_15 => exact exists_sendsBytes_load rfl rfl hb0 (.lddc _) ((toggle 0x14#8 rfl).trans p14)
  case h_16 => exact exists_sendsBytes_load rfl rfl hb1 (.lddc _) ((toggle 0x15#8 rfl).trans p15)
  case h_17 => exact exists_sendsBytes_load rfl rfl hi0 (.ldem _) ((toggle 0x16#8 rfl).trans p16)
  case h_18 => exact exists_sendsBytes_load rfl rfl hi1 (.ldem _) ((toggle 0x17#8 rfl).trans p17)
  case h_19 => exact exists_sendsBytes_load rfl rfl hs0 (.ldem _) ((toggle 0x18#8 rfl).trans p18)
  case h_20 => exact exists_sendsBytes_load rfl rfl hs1 (.ldem _) ((toggle 0x19#8 rfl).trans p19)

/-- A request other than INIT, with operands in range, run by an idle Ready block: it ends as its bytes, sent from where
it began, end, but for the sequencer, the latch, the shadows and the inputs; and its bytes are its items and its rows. -/
theorem runRequest_sameBus {i : Instr} {s : State} (hreq : isRequest i = true) (hinit : ∀ u, i ≠ .init u)
    (hrange : inRange i = true) (hs : IdleReady s) (hdc : DcOk s.dc) (hem : EmOk s.em) :
    ∃ t xs, runRequest i (opCount i) s = .next (complete t) ∧ t.inputs = [] ∧
      SameBus (applyAll Config.build (sendBytes xs) s) t ∧
      itemsOf s.dc s.em i = xs.map itemOf ∧ (transfersOf s.dc s.em i).map encode = xs.map busWord := by
  obtain ⟨r, hw, hd⟩ := exists_request_of_isRequest hreq
  rw [inRange_eq_argsValid hd] at hrange
  obtain ⟨xs, ⟨loads, hops, hloads⟩, hitems, hrows⟩ := exists_sendsBytes Config.build hd hinit hrange hdc hem
  obtain ⟨-, hrun⟩ := runRequest_eq hw hd hs.1 (.inr hs.2) hrange (expand_length Config.build hd hdc hem hrange)
    (opCount_pos hd)
  obtain ⟨-, -, -, -, -, hins⟩ := applyAll_frame Config.build (expand Config.build r s.dc s.em)
    (upload r (expand Config.build r s.dc s.em) { s with inputs := [] })
  refine ⟨_, xs, hrun, hins, ?_, hitems, hrows⟩
  have hstart := (SameBus.upload r (expand Config.build r s.dc s.em) s).trans (hloads Config.build _)
  rw [hops, applyAll_append, ← hops]
  exact hstart.applyAll _ _

/-! ## Requests on the bus -/

/-- What the decoder reads of a stretch of trace, from where the trace before it ends, is added to the bytes. -/
theorem bytes_append_of_reads {es es' : List Event} {items : List BusItem}
    (h : AtByte (decodeFrom (decodeFrom Decoder.start es) es') ∧
      (decodeFrom (decodeFrom Decoder.start es) es').items = (decodeFrom Decoder.start es).items ++ items) :
    bytes (es ++ es') = bytes es ++ items ∧ betweenBytes (es ++ es') = true := by
  rw [← decodeFrom_append] at h
  exact ⟨h.2, (betweenBytes_iff _).mpr h.1⟩

/-- INIT's lead is read, from any decoder's place, as the Cfg, the four lone nibbles and FUNCTION_SET (R109, R170). -/
theorem items_initLead (cfg : Config) (k : Decoder) : (decodeFrom k (eventsOf cfg initLead)).items =
    k.items ++ [.cfg, .nib 0x3#4, .nib 0x3#4, .nib 0x3#4, .nib 0x2#4, .cmd 0x28#8] := by
  have hshort : longCommand 0x28#8 = false := rfl
  simp [initLead, initPowerOn, initSync, wcmd, hshort, xfer, nibw, pulse, eventsOf, List.filterMap_cons, eventOf,
    decodeFrom, decodeEvent, sample, byteItem, hiNibble_append_loNibble]

/-- INIT is read, after any trace, as its own items, and ends between two transfers (R109, R170). -/
theorem decodeFrom_initProgram (cfg : Config) (dc em : Byte) (u : Unread) (k : Decoder) :
    AtByte (decodeFrom k (eventsOf cfg initProgram)) ∧
      (decodeFrom k (eventsOf cfg initProgram)).items = k.items ++ itemsOf dc em (.init u) := by
  obtain ⟨hat, hitems⟩ := decodeFrom_sendBytes cfg initBytes _ (atByte_initLead cfg k)
  rw [initProgram_eq, eventsOf_append, decodeFrom_append]
  refine ⟨hat, ?_⟩
  rw [hitems, items_initLead, List.append_assoc]
  rfl

end Sys2Proof.Machine

open Sys2Proof Sys2Proof.Machine

/-- Settles O24: the byte of each row is that of its word, and the row is one transfer of it. -/
theorem commandRowsDriveTheBus : Obligations.CommandRowsDriveTheBus := by
  intro i v s h
  have hw : encode i = .command v := by
    obtain hfixed | ⟨d, c, b, rfl, rfl⟩ | ⟨id, sh, rfl, rfl⟩ | ⟨addr, rfl, rfl⟩ | ⟨addr, rfl, rfl⟩ := h
    · simp only [List.mem_cons, Prod.mk.injEq, List.not_mem_nil, or_false] at hfixed
      rcases hfixed with ⟨rfl, rfl⟩ | ⟨rfl, rfl⟩ | ⟨rfl, rfl⟩ | ⟨rfl, rfl⟩ | ⟨rfl, rfl⟩ | ⟨rfl, rfl⟩ | ⟨rfl, rfl⟩ <;>
        rfl
    · rw [← displayControlByte_eq_or, encode]
    · rw [← entryModeByte_eq_or, encode]
    · rw [← cgramSetByte_eq_add, encode]
    · rw [← ddramSetByte_eq_add, encode]
  exact (exec_of_encode_busWord (x := (false, v)) hw s).trans (congrArg _ (applyAll_wcmd _ v s))

/-- Settles O25. -/
theorem dataAndNibbleRowsDriveTheBus : Obligations.DataAndNibbleRowsDriveTheBus := by
  refine ⟨fun v s => ?_, fun n s => ?_⟩
  · rw [exec_of_encode_busWord (x := (true, v)) rfl, applyAll_sendByte]
    rfl
  · change Host.Outcome.next (applyAll Config.build (nibw n) s) = _
    rw [applyAll_nibw]
    rfl

/-- Settles O33: the micro-program sends the bytes of the rows, and the loads before them leave the lines and the trace
alone. -/
theorem requestIsItsTransfers : Obligations.RequestIsItsTransfers := by
  intro i s hreq hinit hrange hs hdc hem
  obtain ⟨t, xs, hrun, hins, hsame, -, hrows⟩ := runRequest_sameBus hreq hinit hrange hs hdc hem
  obtain ⟨-, -, hbusy, -⟩ := applyAll_frame Config.build (sendBytes xs) s
  refine ⟨_, _, hrun, execList_eq_sendBytes hrows s, ?_⟩
  have h := (hsame.trans (.complete t)).eq_update (hbusy.trans hs.1).symm
  rwa [complete_upc, complete_useq, complete_inputs, hins] at h

/-- Settles O34: INIT puts the decoder at a known place and then sends its bytes; the loads of another request are not
on the trace. -/
theorem requestBytesOnTheBus : Obligations.RequestBytesOnTheBus := by
  intro i s hreq hrange hb hready hdc hem hbetween
  rw [betweenBytes_iff] at hbetween
  by_cases hinit : ∃ u, i = .init u
  · obtain ⟨u, rfl⟩ := hinit
    obtain ⟨-, hrun⟩ := runRequest_eq (i := .init u) (r := requestN 0x01#8 u) (n := 107) rfl rfl hb (.inl rfl) rfl
      rfl (by decide)
    refine ⟨_, hrun, ?_⟩
    rw [complete_trace, applyAll_trace, upload_trace]
    exact bytes_append_of_reads (decodeFrom_initProgram Config.build s.dc s.em u _)
  · obtain ⟨t, xs, hrun, -, hsame, hitems, -⟩ :=
      runRequest_sameBus hreq (not_exists.mp hinit) hrange ⟨hb, hready.resolve_right hinit⟩ hdc hem
    refine ⟨_, hrun, ?_⟩
    rw [complete_trace, hsame.trace, applyAll_trace, hitems]
    exact bytes_append_of_reads (decodeFrom_sendBytes Config.build xs _ hbetween)
end

section
/-! SUPPORT. WRCHAR on the bus: a request that sends one byte (R216). -/

open Sys2Proof Sys2Proof.Machine

/-- Settles O19: the request is accepted, and its micro-program is the transfer of one DATA byte. -/
theorem wrcharRuns : Obligations.WrcharRuns := by
  intro c b pat s hs
  obtain ⟨hexec, hrun⟩ := runRequest_eq (i := .wrchar c b pat) (r := { op := 0x09#8, a := c, b := b, pat := pat })
    (n := 14) rfl rfl hs.1 (.inr hs.2) rfl rfl (by decide)
  have hsend := complete_sendBytes_concat { op := 0x09#8, a := c, b := b, pat := pat } [] (true, c) s
  rw [List.nil_append, sendBytes_wdata] at hsend
  exact ⟨hexec, hrun.trans (congrArg _ hsend)⟩
end

section
/-! SUPPORT. What a step of a well-formed sequencer can answer: a next state, or the refusal of a bus word of no row
(R141, R280, log 4, log 7). -/

namespace Sys2Proof.Machine

/-- A bus word of no row of the opcode table is the next input (R107). -/
def NoRowIsNext (s : State) : Prop :=
  ∃ w rest, s.inputs = .word w :: rest ∧ decode w = none ∧ ∀ req pat, w ≠ .request req pat

/-- A busy block whose sequencer is well-formed has a micro-op at `upc`, so its own step answers a next state (R141). -/
theorem exists_advance_next (cfg : Config) {s : State} (h : SequencerOk s) : ∃ t, advance cfg s = .next t := by
  unfold advance
  split_ifs with hb
  · obtain ⟨hlt, -⟩ := (if_pos hb).mp h
    have hop := List.getElem?_eq_getElem hlt
    by_cases hl : (s.upc + 1#8).toNat = s.useq.length
    · exact ⟨_, sequencerStep_last cfg s _ hop hl⟩
    · exact ⟨_, sequencerStep_more cfg s _ hop hl⟩
  · exact ⟨s, rfl⟩

/-- A step on a bus word: the sequencer's while the block is busy, else the transfer of its row, or the refusal. -/
theorem step_bus_answers {s : State} (h : SequencerOk s) {w : InstrWord} {rest : List Input}
    (hi : s.inputs = .word w :: rest) (hw : ∀ req pat, w ≠ .request req pat) :
    (∃ t, step s = .next t) ∨ (NoRowIsNext s ∧ step s = .refused .noBusRow) := by
  cases hb : s.busy with
  | true =>
    rw [step_bus_busy hi hw hb]
    exact .inl (exists_advance_next _ h)
  | false =>
    cases hd : decode w with
    | none => exact .inr ⟨⟨w, rest, hi, hd, hw⟩, step_bus_none hi hw hb hd⟩
    | some i => exact .inl ⟨_, (step_bus_some hi hw hb hd).trans (exec_bus w i hd hw _)⟩

/-- A step on a request word answers a next state: acceptance drops a request with an error, or takes it (R101). -/
theorem exists_step_request_next {s : State} {req : BitVec 24} {pat : Pattern} {rest : List Input}
    (hi : s.inputs = .word (.request req pat) :: rest) : ∃ t, step s = .next t := by
  cases hd : decodeRequest (splitRequest req pat) with
  | none => exact ⟨_, step_request_none hi hd⟩
  | some i => exact ⟨_, (step_request_some hi hd).trans (exec_request _ i hd _)⟩

/-- A well-formed sequencer rules out the fault, and all refusals but that of a bus word of no row. -/
theorem step_answers {s : State} (h : SequencerOk s) :
    (∃ t, step s = .next t) ∨ (NoRowIsNext s ∧ step s = .refused .noBusRow) := by
  match hi : s.inputs with
  | [] =>
    rw [step_nil hi]
    exact .inl (exists_advance_next _ h)
  | .sequencer :: rest =>
    rw [step_sequencer hi]
    exact .inl (exists_advance_next _ (s := { s with inputs := rest }) h)
  | .readStatus :: rest => exact .inl ⟨_, step_readStatus hi⟩
  | .poll :: rest =>
    cases hb : s.busy with
    | true =>
      rw [step_poll_busy hi hb]
      exact .inl (exists_advance_next _ h)
    | false => exact .inl ⟨_, step_poll_idle hi hb⟩
  | .reset :: rest => exact .inl ⟨_, step_reset hi⟩
  | .word w :: rest =>
    cases w with
    | request req pat => exact .inl (exists_step_request_next hi)
    | command | data | nibble => exact step_bus_answers h hi (by simp)

end Sys2Proof.Machine

open Sys2Proof Sys2Proof.Machine

/-- Settles O31: the invariant's sequencer clause leaves a step two answers, and neither is a fault. -/
theorem invariantRulesOutFaults : Obligations.InvariantRulesOutFaults := by
  rintro s ⟨hseq, -⟩
  obtain ⟨t, hnext⟩ | ⟨hrow, hrefused⟩ := step_answers hseq
  · exact ⟨fun f hf => by simp [hnext] at hf, fun r hr => by simp [hnext] at hr⟩
  · exact ⟨fun f hf => by simp [hrefused] at hf, fun _ _ => hrow⟩
end

section
/-! SUPPORT. The micro-ops and the least duration of each transfer, from which those of every request are sums (R142-R146,
R149, R330). -/

namespace Sys2Proof.Machine

/-- The least duration of one nibble with its pulse (R142, R146). -/
def nibbleUs (cfg : Config) : Nat := delayUs cfg .setup + delayUs cfg .enable + delayUs cfg .hold

/-- The least duration of one byte with its short delay: `B` of R330. -/
def byteUs (cfg : Config) : Nat := 2 * nibbleUs cfg + delayUs cfg .short

/-- The least duration of a stretch of micro-program (R149). -/
def opsUs (cfg : Config) (ops : List MicroOp) : Nat := waitSum (eventsOf cfg ops)

@[simp] theorem opsUs_nil (cfg : Config) : opsUs cfg [] = 0 := rfl

@[simp] theorem opsUs_append (cfg : Config) (xs ys : List MicroOp) :
    opsUs cfg (xs ++ ys) = opsUs cfg xs + opsUs cfg ys := by
  simp [opsUs, waitSum, eventsOf_append]

@[simp] theorem opsUs_wait (cfg : Config) (p : Delay) (ops : List MicroOp) :
    opsUs cfg (.wait p :: ops) = delayUs cfg p + opsUs cfg ops := rfl

/-- A micro-op that is no wait takes no time (R149). -/
@[simp] theorem opsUs_cons (cfg : Config) (op : MicroOp) (ops : List MicroOp) (h : ∀ p, op ≠ .wait p) :
    opsUs cfg (op :: ops) = opsUs cfg ops := by
  cases op with
  | wait p => exact absurd rfl (h p)
  | cfg | rs | d | en => exact Nat.zero_add _
  | fsm | lddc | ldem => rfl

@[simp] theorem opsUs_nibw (cfg : Config) (n : Nibble) : opsUs cfg (nibw n) = nibbleUs cfg := by
  simp [nibw, pulse, nibbleUs, Nat.add_assoc]

@[simp] theorem opsUs_xfer (cfg : Config) (v : Byte) (m : Bool) : opsUs cfg (xfer v m) = 2 * nibbleUs cfg := by
  simp [xfer, Nat.two_mul]

@[simp] theorem opsUs_wdata (cfg : Config) (v : Byte) : opsUs cfg (wdata v) = byteUs cfg := by
  simp [wdata, byteUs]

@[simp] theorem opsUs_wcmd (cfg : Config) (v : Byte) :
    opsUs cfg (wcmd v) = byteUs cfg + if longCommand v then delayUs cfg .long else 0 := by
  unfold wcmd
  split <;> simp [byteUs, Nat.add_assoc]

/-- The bytes with the long delay are 1 to 3 (R144). -/
theorem longCommand_iff (v : Byte) : longCommand v = true ↔ 1 ≤ v.toNat ∧ v.toNat ≤ 3 := by
  have all : ∀ v : BitVec 8, longCommand v = true ↔ 1 ≤ v.toNat ∧ v.toNat ≤ 3 := by decide
  exact all v

/-- A command with the short delay only: 14 micro-ops and one byte's duration (R144). -/
theorem length_opsUs_wcmd_short (cfg : Config) {v : Byte} (h : longCommand v = false) :
    (wcmd v).length = 14 ∧ opsUs cfg (wcmd v) = byteUs cfg := by
  simp [h]

/-- A command with the long delay as well: one micro-op more, and its wait (R144). -/
theorem length_opsUs_wcmd_long (cfg : Config) {v : Byte} (h : longCommand v = true) :
    (wcmd v).length = 15 ∧ opsUs cfg (wcmd v) = byteUs cfg + delayUs cfg .long := by
  simp [h]

theorem opsUs_initProgram (cfg : Config) :
    opsUs cfg initProgram = delayUs cfg .powerOn + 4 * nibbleUs cfg + delayUs cfg .init1 + delayUs cfg .init2
      + 2 * delayUs cfg .init3 + 5 * byteUs cfg + delayUs cfg .long := by
  have hlong : longCommand 0x28#8 = false ∧ longCommand dcDefault = false ∧ longCommand emDefault = false ∧
      longCommand 0x01#8 = true := by decide
  simp only [initProgram, initPowerOn, initSync, initConfigure, opsUs_append, opsUs_nil, opsUs_nibw, opsUs_wait,
    opsUs_wcmd, opsUs_cons, ne_eq, reduceCtorEq, not_false_eq_true, implies_true, hlong, Bool.false_eq_true,
    if_false, if_true]
  omega

theorem opsUs_clearProgram (cfg : Config) {em : Byte} (h : EmOk em) :
    opsUs cfg (clearProgram em) = 2 * byteUs cfg + delayUs cfg .long := by
  rw [clearProgram, opsUs_append, (length_opsUs_wcmd_long cfg rfl).2,
    (length_opsUs_wcmd_short cfg (emOk_classes h).2).2]
  omega

theorem opsUs_addcharProgram (cfg : Config) (slot : Byte) (pat : Pattern) :
    opsUs cfg (addcharProgram slot pat) = 10 * byteUs cfg := by
  simp only [addcharProgram, opsUs_append, opsUs_wdata, (length_opsUs_wcmd_short cfg (longCommand_cgramCmd slot)).2,
    (length_opsUs_wcmd_short cfg (v := 0x80#8) rfl).2]
  omega

theorem setcurProgram_of_base (cfg : Config) {row col base : Byte} (h : cursorBase cfg row = some base) :
    setcurProgram cfg row col = wcmd (wrapAdd col base) := by
  simp [setcurProgram, h]

end Sys2Proof.Machine

open Sys2Proof Sys2Proof.Machine

/-- Settles O47: each row of R330 is the sum of its bytes, and a byte has the long delay exactly when it is 1 to 3. -/
theorem minimumDurations : Obligations.MinimumDurations := by
  intro cfg B
  refine ⟨⟨rfl, opsUs_initProgram cfg⟩, fun em hem => ⟨clearProgram_length hem, opsUs_clearProgram cfg hem⟩,
    length_opsUs_wcmd_long cfg (v := 0x02#8) rfl, fun ops hops => ?fixed, fun row col base hbase => ?base,
    fun row col hnone => ?noBase, fun c => ⟨rfl, opsUs_wdata cfg c⟩,
    fun slot pat => ⟨addcharProgram_length slot pat, opsUs_addcharProgram cfg slot pat⟩,
    fun v hv => ⟨dcProgram_length hv, ?dc⟩, fun v hv => ⟨emProgram_length hv, ?em⟩⟩
  case fixed =>
    simp only [List.mem_cons, List.not_mem_nil, or_false] at hops
    obtain rfl | rfl | rfl | rfl := hops <;> exact length_opsUs_wcmd_short cfg rfl
  case base =>
    rw [setcurProgram_of_base cfg hbase]
    split_ifs with hlong
    · exact length_opsUs_wcmd_long cfg ((longCommand_iff _).mpr hlong)
    · exact length_opsUs_wcmd_short cfg (Bool.eq_false_iff.mpr fun h => hlong ((longCommand_iff _).mp h))
  case noBase =>
    rw [(setcurProgram_eq_nil cfg row col).mpr hnone]
    exact ⟨rfl, rfl⟩
  case dc => exact (length_opsUs_wcmd_short cfg (dcOk_classes hv).2).2
  case em => exact (length_opsUs_wcmd_short cfg (emOk_classes hv).2).2
end

section
/-! SUPPORT. The pulse of a nibble in real time: where EN rises in a transfer, and what the waits on both sides promise
(R142, R143, R146, R147). -/

namespace Sys2Proof.Machine

/-- The events of NIBW (R142, R146). -/
theorem eventsOf_nibw (cfg : Config) (n : Nibble) :
    eventsOf cfg (nibw n) = [.d n, .wait (delayUs cfg .setup), .en true, .wait (delayUs cfg .enable), .en false,
      .wait (delayUs cfg .hold)] := rfl

/-- The events of XFER: RS, and the two nibbles (R143). -/
theorem eventsOf_xfer (cfg : Config) (v : Byte) (m : Bool) :
    eventsOf cfg (xfer v m) = .rs m :: (eventsOf cfg (nibw (hiNibble v)) ++ eventsOf cfg (nibw (loNibble v))) := rfl

/-- An admissible timing keeps a wait between the events on its two sides (R147). -/
theorem Admissible.wait_le {time : Nat → ℝ} {es : List Event} {i t : Nat} (h : Admissible time es)
    (hw : es[i + 1]? = some (.wait t)) (hlen : i + 2 < es.length) : (t : ℝ) ≤ time (i + 2) - time i := by
  have hbetween : waitBetween es i (i + 2) = t := by
    obtain ⟨hlt, he⟩ := List.getElem?_eq_some_iff.mp hw
    rw [waitBetween, List.drop_take, List.drop_eq_getElem_cons hlt, he]
    simp [waitSum, eventUs]
  exact hbetween ▸ h i (i + 2) (by omega) hlen

/-- In a nibble EN rises at the third event, and only there (R142, R146). -/
theorem eq_two_of_rise {cfg : Config} {n : Nibble} {k : Nat} (h : (eventsOf cfg (nibw n))[k]? = some (.en true)) :
    k = 2 := by
  rw [eventsOf_nibw] at h
  match k with
  | 2 => rfl
  | 0 | 1 | 3 | 4 | 5 | k + 6 => simp at h

/-- A rise of EN in a byte transfer or a lone nibble is the rise of one of its nibbles (R142, R143). -/
theorem exists_nibble_of_rise (cfg : Config) {ops : List MicroOp} {k : Nat}
    (hops : (∃ v m, ops = xfer v m) ∨ (∃ n, ops = nibw n)) (h : (eventsOf cfg ops)[k]? = some (.en true)) :
    ∃ xs n ys, eventsOf cfg ops = xs ++ eventsOf cfg (nibw n) ++ ys ∧ k = xs.length + 2 := by
  obtain ⟨v, m, rfl⟩ | ⟨n, rfl⟩ := hops
  · rw [eventsOf_xfer] at h ⊢
    cases k with
    | zero => simp at h
    | succ k =>
      rw [List.getElem?_cons_succ] at h
      by_cases hk : k < (eventsOf cfg (nibw (hiNibble v))).length
      · rw [List.getElem?_append_left hk] at h
        exact ⟨[.rs m], hiNibble v, _, rfl, by simp [eq_two_of_rise h]⟩
      · rw [List.getElem?_append_right (by omega)] at h
        refine ⟨.rs m :: eventsOf cfg (nibw (hiNibble v)), loNibble v, [], by simp, ?_⟩
        have := eq_two_of_rise h
        rw [List.length_cons]
        omega
  · exact ⟨[], n, [], by simp, eq_two_of_rise h⟩

/-- The pulse of a nibble at any place of a trace: the data lines are set up before EN rises, and EN is high as long as
its wait (R146, R147). -/
theorem nibble_pulse_timing (cfg : Config) (n : Nibble) {xs ys es : List Event} {time : Nat → ℝ}
    (hes : es = xs ++ (eventsOf cfg (nibw n) ++ ys)) (h : Admissible time es) :
    es[xs.length]? = some (.d n) ∧ (delayUs cfg .setup : ℝ) ≤ time (xs.length + 2) - time xs.length ∧
      es[xs.length + 4]? = some (.en false) ∧
      (delayUs cfg .enable : ℝ) ≤ time (xs.length + 4) - time (xs.length + 2) := by
  have hat : ∀ k, es[xs.length + k]? = (eventsOf cfg (nibw n) ++ ys)[k]? := by
    intro k
    rw [hes, List.getElem?_append_right (Nat.le_add_right _ _), Nat.add_sub_cancel_left]
  have hlen : xs.length + 6 ≤ es.length := by simp [hes, eventsOf_nibw]
  exact ⟨hat 0, h.wait_le (hat 1) (by omega), hat 4, h.wait_le (hat 3) (by omega)⟩

end Sys2Proof.Machine

open Sys2Proof Sys2Proof.Machine

/-- Settles O48: each rise of EN is that of a nibble, and the waits on its two sides are the set-up time
and the pulse. -/
theorem enableIsHighLongEnough : Obligations.EnableIsHighLongEnough := by
  intro cfg ops before after time i hops hadm hlo hhi hrise
  rw [List.getElem?_append_left (by simpa using hhi), List.getElem?_append_right hlo] at hrise
  obtain ⟨xs, n, ys, hev, hi⟩ := exists_nibble_of_rise cfg hops hrise
  obtain ⟨hd, hsetup, hfall, henable⟩ := nibble_pulse_timing cfg n (xs := before ++ xs) (ys := ys ++ after)
    (by simp [hev]) hadm
  obtain rfl : i = (before ++ xs).length + 2 := by simp only [List.length_append]; omega
  exact ⟨hfall, henable, Nat.le_add_right _ _, ⟨n, hd⟩, hsetup⟩
end

section
/-! SUPPORT. INIT run to completion: the loads and the lines it ends with, from any state (R170, R171, R173). -/

namespace Sys2Proof.Machine

/-- INIT leaves the block Ready and driving its lines, with the default shadows: its lead sets these, and the last byte
it sends, the EntryMode default, fixes RS, EN and the data lines (R150, R170). -/
theorem applyAll_initProgram_eq (cfg : Config) (s : State) :
    applyAll cfg initProgram s = { s with
      fsm := .ready, dc := dcDefault, em := emDefault, rs := false, en := false, d := loNibble emDefault, oe := true
      trace := s.trace ++ eventsOf cfg initProgram } := by
  have hlast : initBytes = [(false, dcDefault), (false, emDefault), (false, 0x01#8)] ++ [(false, emDefault)] := rfl
  have hfsm : (applyAll cfg initLead s).fsm = .ready := rfl
  have hdc : (applyAll cfg initLead s).dc = dcDefault := rfl
  have hem : (applyAll cfg initLead s).em = emDefault := rfl
  have hoe : (applyAll cfg initLead s).oe = true := rfl
  obtain ⟨hupc, huseq, hbusy, hreq, herr, hins⟩ := applyAll_frame cfg initLead s
  rw [initProgram_eq, hlast, applyAll_append, applyAll_sendBytes_concat, applyAll_trace, eventsOf_append,
    List.append_assoc, hfsm, hdc, hem, hoe, hupc, huseq, hbusy, hreq, herr, hins]

/-- INIT is accepted by any idle block, and its 107 micro-ops complete it (R101, R170, R172). -/
theorem exec_runRequest_init (u : Unread) {s : State} (hb : s.busy = false) :
    exec (.init u) s = .next (upload (requestN 0x01#8 u) initProgram s) ∧
    runRequest (.init u) 107 s = .next (complete (applyAll Config.build initProgram
      (upload (requestN 0x01#8 u) initProgram { s with inputs := [] }))) :=
  runRequest_eq (r := requestN 0x01#8 u) rfl rfl hb (.inl rfl) rfl rfl (by decide)

end Sys2Proof.Machine

open Sys2Proof Sys2Proof.Machine

/-- Settles O12: what acceptance loads runs to the end of the micro-program, and completion clears the sequencer. -/
theorem initRunsToReady : Obligations.InitRunsToReady := by
  intro u s hb
  obtain ⟨-, hrun⟩ := exec_runRequest_init u hb
  rw [hrun, applyAll_initProgram_eq]
  rfl

/-- Settles O11: the initialization state is not asked for, and the micro-program is that of the rule. -/
theorem initAccepted : Obligations.InitAccepted := by
  intro u s hb
  obtain ⟨hexec, -⟩ := exec_runRequest_init u hb
  exact hexec
end

section
/-! SUPPORT. A request that sends one COMMAND byte, run to completion, and the five that send a fixed one (R150,
R191-R195). -/

namespace Sys2Proof.Machine

/-- An accepted request whose micro-program is the transfer of one COMMAND byte: the load of it, and the state it
completes in (R101, R141, R150). -/
theorem exec_runRequest_wcmd {i : Instr} {r : Request} {v : Byte} {n : Nat} {s : State} (hw : encode i = requestWord r)
    (hs : IdleReady s) (hvalid : argsValid r.op r.a r.b = true) (hops : expand Config.build r s.dc s.em = wcmd v)
    (hn : (wcmd v).length = n) :
    exec i s = .next (acceptedState r (wcmd v) s) ∧
    runRequest i n s = .next (completedState r false v (wcmd v) s) := by
  obtain ⟨hidle, hready⟩ := hs
  have hpos : 0 < n := hn ▸ List.length_pos_of_ne_nil (wcmd_ne_nil v)
  obtain ⟨hexec, hrun⟩ := runRequest_eq hw (decodeRequest_of_encode hw) hidle (.inr hready) hvalid
    ((congrArg List.length hops).trans hn) hpos
  have hsend := complete_sendBytes_concat r [] (false, v) s
  rw [List.nil_append, sendBytes_wcmd] at hsend
  rw [hops] at hexec hrun
  exact ⟨hexec, hrun.trans (congrArg _ hsend)⟩

/-- The rows of R191-R195: the request of each, its byte, and how many micro-ops its transfer has. -/
theorem fixedCommand_rows {c : Unread → Instr} {op v : Byte} {n : Nat}
    (h : (c, op, v, n) ∈ [(Instr.home, 0x03#8, 0x02#8, 15), (Instr.shl, 0x04#8, 0x18#8, 14),
      (Instr.shr, 0x05#8, 0x1C#8, 14), (Instr.curinc, 0x06#8, 0x14#8, 14), (Instr.curdec, 0x07#8, 0x10#8, 14)])
    (u : Unread) (cfg : Config) (dc em : Byte) :
    encode (c u) = requestWord (requestN op u) ∧ argsValid op u.a u.b = true ∧
      expand cfg (requestN op u) dc em = wcmd v ∧ (wcmd v).length = n := by
  simp only [List.mem_cons, Prod.mk.injEq, List.not_mem_nil, or_false] at h
  rcases h with ⟨rfl, rfl, rfl, rfl⟩ | ⟨rfl, rfl, rfl, rfl⟩ | ⟨rfl, rfl, rfl, rfl⟩ | ⟨rfl, rfl, rfl, rfl⟩ |
      ⟨rfl, rfl, rfl, rfl⟩ <;>
    exact ⟨rfl, rfl, rfl, rfl⟩

end Sys2Proof.Machine

open Sys2Proof Sys2Proof.Machine

/-- Settles O14: each row's micro-program is the transfer of its byte, and one transfer changes the lines and the trace
only. -/
theorem fixedCommandsRun : Obligations.FixedCommandsRun := by
  intro c op v n hrow u s hs
  obtain ⟨hw, hvalid, hops, hn⟩ := fixedCommand_rows hrow u Config.build s.dc s.em
  exact exec_runRequest_wcmd hw hs hvalid hops hn
end

section
/-! SUPPORT. The address translators, and SETCUR and ADDCHAR within range and outside it (R210-R215, R285). -/

namespace Sys2Proof.Machine

/-! ## The translators -/

/-- R210: each of the four rows has its base. -/
theorem rowBase_of_mem {row base : Byte}
    (h : (row, base) ∈ [(0x01#8, 0x7F#8), (0x02#8, 0xBF#8), (0x03#8, 0x93#8), (0x04#8, 0xD3#8)]) :
    rowBase row = some base := by
  simp only [List.mem_cons, Prod.mk.injEq, List.not_mem_nil, or_false] at h
  rcases h with ⟨rfl, rfl⟩ | ⟨rfl, rfl⟩ | ⟨rfl, rfl⟩ | ⟨rfl, rfl⟩ <;> rfl

/-- The table's base of a row is its base under every configuration (R210). -/
theorem cursorBase_of_rowBase (cfg : Config) {row base : Byte} (h : rowBase row = some base) :
    cursorBase cfg row = some base := by
  simp [cursorBase, h]

/-- A row outside 1 to 4 has the open base (R212). -/
theorem cursorBase_of_invalid (cfg : Config) {row : Byte} (h : ¬ (1 ≤ row.toNat ∧ row.toNat ≤ 4)) :
    cursorBase cfg row = cfg.rowBaseInvalid row := by
  cases hrow : rowBase row with
  | none => simp [cursorBase, hrow]
  | some base =>
    have hvalid := rowBase_eq_some hrow
    omega

/-- R213, on numbers. -/
theorem cgramCmd_toNat (slot : Byte) : (cgramCmd slot).toNat = (0x40 + 8 * slot.toNat) % 256 := by
  simp [cgramCmd]

/-- The translator has period 32 (R213). -/
theorem cgramCmd_add_32 (slot : Byte) : cgramCmd (slot + 32#8) = cgramCmd slot := by
  apply BitVec.eq_of_toNat_eq
  rw [cgramCmd_toNat, cgramCmd_toNat, BitVec.toNat_add]
  simp only [BitVec.toNat_ofNat]
  omega

/-! ## The range checks -/

theorem argsValid_setcur (row col : Byte) :
    argsValid 0x08#8 row col = true ↔ 1 ≤ row.toNat ∧ row.toNat ≤ 4 ∧ 1 ≤ col.toNat ∧ col.toNat ≤ 20 := by
  simp [argsValid, rowValid, colValid, and_assoc]

theorem argsValid_addchar (slot b : Byte) : argsValid 0x0A#8 slot b = true ↔ slot.toNat ≤ 7 := by
  simp [argsValid, slotValid]

/-- With bounds checks an idle Ready block drops a request with an operand out of range, and sets ARG only (R285). -/
theorem issue_outOfRange {cfg : Config} (hcheck : cfg.boundsCheck = true) (initReq : Bool) (r : Request)
    (ops : List MicroOp) {s : State} (hs : IdleReady s) :
    issue cfg initReq false r ops s = { s with err := { s.err with arg := true } } := by
  obtain ⟨hidle, hready⟩ := hs
  simp [issue, hidle, hready, hcheck, raise, setError]

/-- Without bounds checks the operands are not looked at (R101, R215). -/
theorem issue_unchecked {cfg : Config} (hcheck : cfg.boundsCheck = false) (initReq argsOk : Bool) (r : Request)
    (ops : List MicroOp) {s : State} (hs : IdleReady s) :
    issue cfg initReq argsOk r ops s = upload r ops s := by
  obtain ⟨hidle, hready⟩ := hs
  simp [issue, hidle, hready, hcheck]

/-! ## SETCUR without bounds checks -/

/-- A row with a base, in range or not, has its wrapped byte sent (R211, R212). -/
theorem setcurUnder_of_base {cfg : Config} (hcheck : cfg.boundsCheck = false) {row base : Byte} (col : Byte)
    (pat : Pattern) {s : State} (hs : IdleReady s) (hbase : cursorBase cfg row = some base) :
    setcurUnder cfg row col pat s =
      acceptedState { op := 0x08#8, a := row, b := col, pat := pat } (wcmd (col + base)) s := by
  rw [setcurUnder, issue_unchecked hcheck _ _ _ _ hs, setcurProgram_of_base cfg hbase]
  rfl

/-- For a row without a base nothing is sent, and the block stays idle (R101, R212). -/
theorem setcurUnder_of_no_base {cfg : Config} (hcheck : cfg.boundsCheck = false) {row : Byte} (col : Byte)
    (pat : Pattern) {s : State} (hs : IdleReady s) (hbase : cursorBase cfg row = none) :
    setcurUnder cfg row col pat s =
      { s with req := { op := 0x08#8, a := row, b := col, pat := pat }, useq := [], upc := 0x00#8 } := by
  rw [setcurUnder, issue_unchecked hcheck _ _ _ _ hs, (setcurProgram_eq_nil cfg row col).mpr hbase]
  simp [upload, hs.1]

end Sys2Proof.Machine

open Sys2Proof Sys2Proof.Machine

/-- Settles O44: each row's byte is a sum of two bytes, which wraps. -/
theorem ddramTranslator : Obligations.DdramTranslator := by
  intro cfg col p hp
  simp only [List.mem_cons, List.not_mem_nil, or_false] at hp
  rcases hp with rfl | rfl | rfl | rfl <;> exact ⟨_, rfl, BitVec.toNat_add _ _⟩

/-- Settles O45: every clause but that of the long delay is arithmetic on the byte's number. -/
theorem cgramTranslator : Obligations.CgramTranslator := by
  intro slot
  have hnum := cgramCmd_toNat slot
  exact ⟨hnum, by omega, longCommand_cgramCmd slot, cgramCmd_add_32 slot, by omega, by omega, by omega⟩

/-- Settles O15: the request is accepted, and its micro-program is the transfer of one COMMAND byte, from 0x80 on. -/
theorem setcurRuns : Obligations.SetcurRuns := by
  intro row col base pat s hrow hlo hhi hs
  have hbase := rowBase_of_mem hrow
  have hrange := rowBase_eq_some hbase
  have hvalid : argsValid 0x08#8 row col = true := (argsValid_setcur row col).mpr (by omega)
  have hprogram : setcurProgram Config.build row col = wcmd (col + base) :=
    setcurProgram_of_base _ (cursorBase_of_rowBase _ hbase)
  exact exec_runRequest_wcmd (i := .setcur row col pat) (r := { op := 0x08#8, a := row, b := col, pat := pat }) rfl hs
    hvalid hprogram (hprogram ▸ setcurProgram_length _ hvalid)

/-- Settles O16, by the bounds check and the base of the row. -/
theorem setcurOutOfRange : Obligations.SetcurOutOfRange := by
  refine ⟨fun _ _ _ _ => rfl, fun _ => rfl, fun cfg row col pat s hs hout =>
    ⟨fun hcheck => ?_, fun hcheck base hrow => ?_, fun hcheck hinvalid base hopen => ?_,
      fun hcheck hinvalid hopen => ?_⟩⟩
  · have hargs : argsValid 0x08#8 row col = false := by rwa [← Bool.not_eq_true, argsValid_setcur]
    rw [setcurUnder, hargs, issue_outOfRange hcheck _ _ _ hs]
  · exact setcurUnder_of_base hcheck col pat hs (cursorBase_of_rowBase cfg (rowBase_of_mem hrow))
  · exact setcurUnder_of_base hcheck col pat hs ((cursorBase_of_invalid cfg hinvalid).trans hopen)
  · exact setcurUnder_of_no_base hcheck col pat hs ((cursorBase_of_invalid cfg hinvalid).trans hopen)

/-- Settles O18, by the bounds check; the micro-program is that of the slots in range. -/
theorem addcharOutOfRange : Obligations.AddcharOutOfRange := by
  refine ⟨fun _ _ _ _ => rfl, fun cfg slot b pat s hs hslot => ⟨fun hcheck => ?_, fun hcheck => ?_⟩⟩
  · have hargs : argsValid 0x0A#8 slot b = false := by
      rw [← Bool.not_eq_true, argsValid_addchar]
      omega
    rw [addcharUnder, hargs, issue_outOfRange hcheck _ _ _ hs]
  · exact ⟨issue_unchecked hcheck _ _ _ _ hs, addcharProgram_length slot pat⟩
end

section
/-! SUPPORT. The toggles: the write of one bit, bit by bit; the shadow a toggle's opcode leads to; and a toggle run to
completion (R230-R241). -/

namespace Sys2Proof.Machine

/-! ## The write of one bit -/

/-- R230, bit by bit: the written bit holds the value, every other bit its own. -/
theorem getLsbD_setBit (reg : Byte) (i : Nat) (v : Bool) {k : Nat} (hk : k < 8) :
    (setBit reg i v).getLsbD k = if i = k then v else reg.getLsbD k := by
  unfold setBit
  rcases eq_or_ne i k with rfl | hik
  · cases v <;> simp [hk]
  · cases v <;> simp [hk, hik, hik.symm]

/-- A field that does not hold the written bit stays (R38, R230). -/
theorem setBit_and_of_getLsbD_eq_false (reg : Byte) {mask : Byte} {i : Nat} (v : Bool) (h : mask.getLsbD i = false) :
    setBit reg i v &&& mask = reg &&& mask := by
  refine BitVec.eq_of_getLsbD_eq fun k hk => ?_
  rw [BitVec.getLsbD_and, BitVec.getLsbD_and, getLsbD_setBit reg i v hk]
  split_ifs with hik
  · simp [← hik, h]
  · rfl

/-- R241(b): writes of different bits commute, as each bit is written at most once. -/
theorem setBit_comm (reg : Byte) {i j : Nat} (v w : Bool) (h : i ≠ j) :
    setBit (setBit reg i v) j w = setBit (setBit reg j w) i v := by
  refine BitVec.eq_of_getLsbD_eq fun k hk => ?_
  simp only [getLsbD_setBit _ _ _ hk]
  split_ifs with hj hi
  · exact absurd (hi.trans hj.symm) h
  · rfl
  · rfl
  · rfl

/-- A second write of a bit is the one that counts. -/
theorem setBit_setBit (reg : Byte) (i : Nat) (v w : Bool) : setBit (setBit reg i v) i w = setBit reg i w := by
  refine BitVec.eq_of_getLsbD_eq fun k hk => ?_
  simp only [getLsbD_setBit _ _ _ hk]
  split_ifs <;> rfl

/-- A write changes nothing exactly when the bit held the value. -/
theorem setBit_eq_self_iff (reg : Byte) {i : Nat} (v : Bool) (hi : i < 8) :
    setBit reg i v = reg ↔ reg.getLsbD i = v := by
  constructor
  · intro h
    rw [← h, getLsbD_setBit reg i v hi, if_pos rfl]
  · intro h
    refine BitVec.eq_of_getLsbD_eq fun k hk => ?_
    rw [getLsbD_setBit reg i v hk]
    split_ifs with hik
    · rw [← h, hik]
    · rfl

/-- R241(c): a bit written with the other value and then with `v` is restored exactly when it held `v`. -/
theorem setBit_not_setBit_eq_self_iff (reg : Byte) {i : Nat} (v : Bool) (hi : i < 8) :
    setBit (setBit reg i (!v)) i v = reg ↔ reg.getLsbD i = v := by
  rw [setBit_setBit, setBit_eq_self_iff reg v hi]

/-- The write of one bit as a mask of what is kept and a mask of what is set (R231-R240). -/
theorem masks_eq_setBit (reg : Byte) {keep set : Byte} {i : Nat} {v : Bool}
    (hkeep : keep = if v then 0xFF#8 else ~~~BitVec.twoPow 8 i) (hset : set = if v then BitVec.twoPow 8 i else 0x00#8) :
    reg &&& keep ||| set = setBit reg i v := by
  subst hkeep hset
  cases v
  · exact BitVec.or_zero
  · exact congrArg (· ||| BitVec.twoPow 8 i) BitVec.and_allOnes

/-! ## The shadow a toggle leads to -/

/-- DisplayControl after the toggle with opcode 0x10 to 0x15: bits 2, 1, 0 for selectors 0, 1, 2 (R105, R230). -/
def dcToggled (op dc : Byte) : Byte := setBit dc (2 - (op.toNat - 0x10) / 2) (op.toNat % 2 = 1)

/-- EntryMode after the toggle with opcode 0x16 to 0x19: bits 1, 0 for selectors 3, 4 (R105, R230). -/
def emToggled (op em : Byte) : Byte := setBit em (4 - (op.toNat - 0x10) / 2) (op.toNat % 2 = 1)

theorem dcToggled_eq (op dc : Byte) :
    dcToggled op dc = if op.toNat % 2 = 1 then dc ||| 1#8 <<< (2 - (op.toNat - 0x10) / 2)
      else dc &&& ~~~(1#8 <<< (2 - (op.toNat - 0x10) / 2)) := by
  simp only [dcToggled, setBit, decide_eq_true_eq, BitVec.twoPow]

theorem emToggled_eq (op em : Byte) :
    emToggled op em = if op.toNat % 2 = 1 then em ||| 1#8 <<< (4 - (op.toNat - 0x10) / 2)
      else em &&& ~~~(1#8 <<< (4 - (op.toNat - 0x10) / 2)) := by
  simp only [emToggled, setBit, decide_eq_true_eq, BitVec.twoPow]

theorem dcToggled_hardwired (op dc : Byte) : dcToggled op dc &&& 0xF8#8 = dc &&& 0xF8#8 := by
  have low : ∀ bit : Fin 3, (0xF8#8).getLsbD bit = false := by decide
  exact setBit_and_of_getLsbD_eq_false dc _ (low ⟨2 - (op.toNat - 0x10) / 2, by omega⟩)

theorem emToggled_hardwired {op : Byte} (hlo : 0x16 ≤ op.toNat) (em : Byte) :
    emToggled op em &&& 0xFC#8 = em &&& 0xFC#8 := by
  have low : ∀ bit : Fin 2, (0xFC#8).getLsbD bit = false := by decide
  exact setBit_and_of_getLsbD_eq_false em _ (low ⟨4 - (op.toNat - 0x10) / 2, by omega⟩)

/-! ## The opcodes of the toggles -/

theorem toggleOp_of_range {op : Byte} (hlo : 0x10 ≤ op.toNat) (hhi : op.toNat ≤ 0x19) : op.extractLsb' 4 4 = 0x1#4 := by
  refine BitVec.eq_of_toNat_eq ?_
  simp only [BitVec.extractLsb'_toNat, Nat.shiftRight_eq_div_pow, BitVec.toNat_ofNat]
  omega

/-- The value of a toggle is the low bit of its opcode (R105). -/
theorem toggleOp_value (op : Byte) : op.getLsbD 0 = decide (op.toNat % 2 = 1) := by
  simp [BitVec.getLsbD, Nat.testBit_zero]

/-- R103: the operands of a toggle are not checked. -/
theorem argsValid_toggle {op : Byte} (hop : op.extractLsb' 4 4 = 0x1#4) (a b : Byte) : argsValid op a b = true := by
  have hsetcur : op ≠ 0x08#8 := fun h => absurd (h ▸ hop) (by decide)
  have haddchar : op ≠ 0x0A#8 := fun h => absurd (h ▸ hop) (by decide)
  rw [argsValid, if_neg hsetcur, if_neg haddchar]

/-- Opcodes 0x10 to 0x15 load and send DisplayControl (R230). -/
theorem toggleProgram_eq_dcProgram {op : Byte} (hlo : 0x10 ≤ op.toNat) (hhi : op.toNat ≤ 0x15) (dc em : Byte) :
    toggleProgram op dc em = dcProgram (dcToggled op dc) := by
  have hsel := toggleOp_toNat (toggleOp_of_range hlo (by omega))
  have hbit : (op.toNat - 0x10) / 2 = (op.extractLsb' 1 3).toNat := by omega
  have hlt : (op.extractLsb' 1 3).toNat < 3 := by omega
  rw [toggleProgram, dcToggled, toggleOp_value, hbit]
  generalize (op.extractLsb' 1 3).toNat = sel at hlt
  match sel, hlt with
  | 0, _ | 1, _ | 2, _ => rfl

/-- Opcodes 0x16 to 0x19 load and send EntryMode (R230). -/
theorem toggleProgram_eq_emProgram {op : Byte} (hlo : 0x16 ≤ op.toNat) (hhi : op.toNat ≤ 0x19) (dc em : Byte) :
    toggleProgram op dc em = emProgram (emToggled op em) := by
  have hsel := toggleOp_toNat (toggleOp_of_range (by omega) hhi)
  have hbit : (op.toNat - 0x10) / 2 = (op.extractLsb' 1 3).toNat := by omega
  have hge : 3 ≤ (op.extractLsb' 1 3).toNat := by omega
  have hlt : (op.extractLsb' 1 3).toNat < 5 := by omega
  rw [toggleProgram, emToggled, toggleOp_value, hbit]
  generalize (op.extractLsb' 1 3).toNat = sel at hge hlt
  match sel, hge, hlt with
  | 3, _, _ | 4, _, _ => rfl

/-! ## A toggle, accepted and run -/

/-- Every opcode 0x10 to 0x19 has an instruction, and an idle Ready block accepts it (R101, R105). -/
theorem exists_exec_toggle {r : Request} {s : State} (hlo : 0x10 ≤ r.op.toNat) (hhi : r.op.toNat ≤ 0x19)
    (hs : IdleReady s) :
    ∃ i, decodeRequest r = some i ∧ exec i s = .next (upload r (toggleProgram r.op s.dc s.em) s) := by
  obtain ⟨hidle, hready⟩ := hs
  have hop := toggleOp_of_range hlo hhi
  have hsome : decodeRequest r ≠ none := by
    rw [Ne, decodeRequest_none]
    simp only [reservedOp, Bool.or_eq_true, Bool.and_eq_true, beq_iff_eq, decide_eq_true_eq]
    omega
  obtain ⟨i, hd⟩ := Option.ne_none_iff_exists'.mp hsome
  refine ⟨i, hd, ?_⟩
  rw [exec_request r i hd, argsValid_toggle hop, issue_accepts _ _ r _ s hidle (.inr hready), expand_toggle _ _ _ hop]

/-- An accepted request whose micro-program loads a shadow and sends one COMMAND byte with the short delay: it completes as
the transfer of the byte does, with the load on top (R141, R150, R230). -/
theorem exec_runRequest_load {i : Instr} {r : Request} {load : MicroOp} {v : Byte} {s : State}
    (hw : encode i = requestWord r) (hs : IdleReady s) (hvalid : argsValid r.op r.a r.b = true)
    (hops : expand Config.build r s.dc s.em = load :: wcmd v) (hload : load = .lddc v ∨ load = .ldem v)
    (hshort : longCommand v = false) :
    exec i s = .next (acceptedState r (load :: wcmd v) s) ∧
    runRequest i 15 s = .next (applyOp Config.build load (completedState r false v (wcmd v) s)) := by
  obtain ⟨hidle, hready⟩ := hs
  have hlength : (expand Config.build r s.dc s.em).length = 15 := by simp [hops, hshort]
  obtain ⟨hexec, hrun⟩ := runRequest_eq hw (decodeRequest_of_encode hw) hidle (.inr hready) hvalid hlength (by decide)
  rw [hops] at hexec hrun
  rw [applyAll_cons, applyAll_wcmd] at hrun
  refine ⟨hexec, hrun.trans ?_⟩
  rcases hload with rfl | rfl <;> rfl

/-- A DisplayControl toggle on an idle Ready block (R231-R236). -/
theorem exec_runRequest_displayToggle {i : Instr} {r : Request} {s : State} (hw : encode i = requestWord r)
    (hlo : 0x10 ≤ r.op.toNat) (hhi : r.op.toNat ≤ 0x15) (hs : IdleReady s) (hdc : DcOk s.dc) :
    exec i s = .next (acceptedState r (dcProgram (dcToggled r.op s.dc)) s) ∧
    runRequest i 15 s = .next { completedState r false (dcToggled r.op s.dc) (wcmd (dcToggled r.op s.dc)) s with
      dc := dcToggled r.op s.dc } ∧
    DcOk (dcToggled r.op s.dc) := by
  have hop := toggleOp_of_range hlo (by omega)
  have hnew : DcOk (dcToggled r.op s.dc) := (dcToggled_hardwired r.op s.dc).trans hdc
  have hops := (expand_toggle Config.build s.dc s.em hop).trans (toggleProgram_eq_dcProgram hlo hhi s.dc s.em)
  obtain ⟨hexec, hrun⟩ := exec_runRequest_load hw hs (argsValid_toggle hop r.a r.b) hops (.inl rfl) (dcOk_classes hnew).2
  exact ⟨hexec, hrun, hnew⟩

/-- A DisplayControl toggle ends ready for the next one. -/
theorem runRequest_displayToggle_next {i : Instr} {r : Request} {s t : State} (hw : encode i = requestWord r)
    (hlo : 0x10 ≤ r.op.toNat) (hhi : r.op.toNat ≤ 0x15) (hs : IdleReady s) (hdc : DcOk s.dc)
    (ht : runRequest i 15 s = .next t) : IdleReady t ∧ t.dc = dcToggled r.op s.dc ∧ DcOk t.dc := by
  obtain ⟨-, hrun, hnew⟩ := exec_runRequest_displayToggle hw hlo hhi hs hdc
  obtain rfl := Host.Outcome.next.inj (hrun.symm.trans ht)
  exact ⟨⟨rfl, hs.2⟩, rfl, hnew⟩

/-- An EntryMode toggle on an idle Ready block (R237-R240). -/
theorem exec_runRequest_entryToggle {i : Instr} {r : Request} {s : State} (hw : encode i = requestWord r)
    (hlo : 0x16 ≤ r.op.toNat) (hhi : r.op.toNat ≤ 0x19) (hs : IdleReady s) (hem : EmOk s.em) :
    exec i s = .next (acceptedState r (emProgram (emToggled r.op s.em)) s) ∧
    runRequest i 15 s = .next { completedState r false (emToggled r.op s.em) (wcmd (emToggled r.op s.em)) s with
      em := emToggled r.op s.em } ∧
    EmOk (emToggled r.op s.em) := by
  have hop := toggleOp_of_range (by omega) hhi
  have hnew : EmOk (emToggled r.op s.em) := (emToggled_hardwired hlo s.em).trans hem
  have hops := (expand_toggle Config.build s.dc s.em hop).trans (toggleProgram_eq_emProgram hlo hhi s.dc s.em)
  obtain ⟨hexec, hrun⟩ := exec_runRequest_load hw hs (argsValid_toggle hop r.a r.b) hops (.inr rfl) (emOk_classes hnew).2
  exact ⟨hexec, hrun, hnew⟩

/-! ## The rows of the toggles -/

/-- The rows of R231-R236: the request of each, and its masks as the write of its bit. -/
theorem displayToggle_rows {c : Unread → Instr} {op keep set : Byte}
    (h : (c, op, keep, set) ∈ [(Instr.dispoff, 0x10#8, 0xFB#8, 0x00#8), (Instr.dispon, 0x11#8, 0xFF#8, 0x04#8),
      (Instr.uloff, 0x12#8, 0xFD#8, 0x00#8), (Instr.ulon, 0x13#8, 0xFF#8, 0x02#8),
      (Instr.blinkoff, 0x14#8, 0xFE#8, 0x00#8), (Instr.blinkon, 0x15#8, 0xFF#8, 0x01#8)]) (u : Unread) (dc : Byte) :
    encode (c u) = requestWord (requestN op u) ∧ 0x10 ≤ op.toNat ∧ op.toNat ≤ 0x15 ∧
      dc &&& keep ||| set = dcToggled op dc := by
  simp only [List.mem_cons, Prod.mk.injEq, List.not_mem_nil, or_false] at h
  rcases h with ⟨rfl, rfl, rfl, rfl⟩ | ⟨rfl, rfl, rfl, rfl⟩ | ⟨rfl, rfl, rfl, rfl⟩ | ⟨rfl, rfl, rfl, rfl⟩ |
      ⟨rfl, rfl, rfl, rfl⟩ | ⟨rfl, rfl, rfl, rfl⟩ <;>
    exact ⟨rfl, by decide, by decide, masks_eq_setBit dc (by decide) (by decide)⟩

/-- The rows of R237-R240. -/
theorem entryToggle_rows {c : Unread → Instr} {op keep set : Byte}
    (h : (c, op, keep, set) ∈ [(Instr.entdec, 0x16#8, 0xFD#8, 0x00#8), (Instr.entinc, 0x17#8, 0xFF#8, 0x02#8),
      (Instr.entshoff, 0x18#8, 0xFE#8, 0x00#8), (Instr.entshon, 0x19#8, 0xFF#8, 0x01#8)]) (u : Unread) (em : Byte) :
    encode (c u) = requestWord (requestN op u) ∧ 0x16 ≤ op.toNat ∧ op.toNat ≤ 0x19 ∧
      em &&& keep ||| set = emToggled op em := by
  simp only [List.mem_cons, Prod.mk.injEq, List.not_mem_nil, or_false] at h
  rcases h with ⟨rfl, rfl, rfl, rfl⟩ | ⟨rfl, rfl, rfl, rfl⟩ | ⟨rfl, rfl, rfl, rfl⟩ | ⟨rfl, rfl, rfl, rfl⟩ <;>
    exact ⟨rfl, by decide, by decide, masks_eq_setBit em (by decide) (by decide)⟩

/-- DISPOFF and then DISPON write D twice, 0 and then 1 (R231, R232, R241). -/
theorem runRequest_dispoff_dispon {u u' : Unread} {s t t' : State} (hs : IdleReady s) (hdc : DcOk s.dc)
    (ht : runRequest (.dispoff u) 15 s = .next t) (ht' : runRequest (.dispon u') 15 t = .next t') :
    t'.dc = setBit (setBit s.dc 2 false) 2 true := by
  obtain ⟨hready, hoff, hnew⟩ := runRequest_displayToggle_next (r := requestN 0x10#8 u) rfl
    (by simp [requestN]) (by simp [requestN]) hs hdc ht
  obtain ⟨-, hon, -⟩ := runRequest_displayToggle_next (r := requestN 0x11#8 u') rfl
    (by simp [requestN]) (by simp [requestN]) hready hnew ht'
  simp [hon, hoff, dcToggled, requestN]

end Sys2Proof.Machine

open Sys2Proof Sys2Proof.Machine

/-- Settles O20: each row's masks are the write of its opcode's bit, which leaves the hardwired field alone. -/
theorem displayTogglesRun : Obligations.DisplayTogglesRun := by
  intro c op keep set hrow u s hs hdc
  obtain ⟨hw, hlo, hhi, hnew⟩ := displayToggle_rows hrow u s.dc
  rw [hnew]
  exact exec_runRequest_displayToggle hw hlo hhi hs hdc

/-- Settles O21: as for DisplayControl. -/
theorem entryTogglesRun : Obligations.EntryTogglesRun := by
  intro c op keep set hrow u s hs hem
  obtain ⟨hw, hlo, hhi, hnew⟩ := entryToggle_rows hrow u s.em
  rw [hnew]
  exact exec_runRequest_entryToggle hw hlo hhi hs hem

/-- Settles O22, by the register of the selector. -/
theorem toggleOpcodeStructure : Obligations.ToggleOpcodeStructure := by
  intro r s sel hlo hhi hs hsel
  subst hsel
  obtain ⟨i, hd, hexec⟩ := exists_exec_toggle hlo hhi hs
  refine ⟨i, hd, ?_⟩
  by_cases hdc : (r.op.toNat - 0x10) / 2 < 3
  · rw [toggleProgram_eq_dcProgram hlo (by omega)] at hexec
    rw [if_pos hdc, ← dcToggled_eq]
    exact ⟨hexec, dcToggled_hardwired r.op s.dc⟩
  · have hentry : 0x16 ≤ r.op.toNat := by omega
    rw [toggleProgram_eq_emProgram hentry hhi] at hexec
    rw [if_neg hdc, ← emToggled_eq]
    exact ⟨hexec, emToggled_hardwired hentry s.em⟩

/-- Settles O23: each law is one of the write of a bit, and the two runs are two such writes. -/
theorem toggleLaws : Obligations.ToggleLaws := by
  refine ⟨fun reg i j v w _ _ hij => setBit_comm reg v w hij, fun reg i v hi => setBit_not_setBit_eq_self_iff reg v hi,
    fun u u' s t t' hs hdc ht ht' => ?_⟩
  rw [runRequest_dispoff_dispon hs hdc ht ht']
  exact setBit_not_setBit_eq_self_iff s.dc true (by decide)
end

section
/-! SUPPORT. The host reference of numbers: the count of digits and the digits of a natural, and what WRFLOAT writes of a
value with an exact integer part (R253-R258). -/

namespace Sys2Proof.Machine

/-! ## The digits of a natural -/

/-- With fuel for every digit, the count is one more than the logarithm to base 10 (R254). -/
theorem digitCountWithin_eq {fuel m : Nat} (h : m ≤ fuel) : digitCountWithin fuel m = Nat.log 10 m + 1 := by
  induction fuel generalizing m with
  | zero => simp [digitCountWithin, Nat.le_zero.mp h]
  | succ fuel ih =>
    simp only [digitCountWithin]
    split
    next hlt => rw [Nat.log_of_lt hlt]
    next hge => rw [ih (by omega), Nat.log_of_one_lt_of_le (by decide) (not_lt.mp hge)]

theorem digitCount_eq (m : Nat) : digitCount m = Nat.log 10 m + 1 := digitCountWithin_eq le_rfl

/-- The number has no more than its count of digits (R254). -/
theorem lt_pow_digitCount (m : Nat) : m < 10 ^ digitCount m := by
  rw [digitCount_eq]
  exact Nat.lt_pow_succ_log_self (by decide) m

/-- No smaller power of 10 lies above a number other than 0 (R254). -/
theorem digitCount_le_of_lt_pow {m n : Nat} (hm : m ≠ 0) (h : m < 10 ^ n) : digitCount m ≤ n := by
  rw [digitCount_eq]
  exact Nat.log_lt_of_lt_pow hm h

/-- The last n decimal digits of m as characters, most significant first. -/
def decimalDigits (m n : Nat) : List Byte := (List.range n).reverse.map fun k => digitChar (m / 10 ^ k)

@[simp] theorem decimalDigits_length (m n : Nat) : (decimalDigits m n).length = n := by simp [decimalDigits]

theorem decimalDigits_succ (m n : Nat) : decimalDigits m (n + 1) = digitChar (m / 10 ^ n) :: decimalDigits m n := by
  simp [decimalDigits, List.range_succ]

theorem decimalDigits_range {m n : Nat} {c : Byte} (h : c ∈ decimalDigits m n) : 0x30 ≤ c.toNat ∧ c.toNat ≤ 0x39 := by
  obtain ⟨k, -, rfl⟩ := List.mem_map.mp h
  exact digitChar_range _

/-- Read most significant first after the digits of `acc`, the last n digits of m append m modulo 10^n. -/
theorem foldl_decimalDigits (m n acc : Nat) :
    (decimalDigits m n).foldl (fun acc c => 10 * acc + (c.toNat - 0x30)) acc = acc * 10 ^ n + m % 10 ^ n := by
  induction n generalizing acc with
  | zero => simp [decimalDigits, Nat.mod_one]
  | succ n ih =>
    rw [decimalDigits_succ, List.foldl_cons, ih, digitChar_toNat, Nat.add_sub_cancel_left, Nat.mod_pow_succ]
    ring

/-- WRNAT writes the padding and then every digit of the number (R253). -/
theorem wrNat_eq (m L : Nat) :
    wrNat m L = (List.replicate (L - digitCount m) 0x20#8 ++ decimalDigits m (digitCount m)).map putChar := by
  simp [wrNat, decimalDigits]

theorem wrNat_length (m L : Nat) : (wrNat m L).length = max L (digitCount m) := by
  rw [wrNat_eq, List.length_map, List.length_append, List.length_replicate, decimalDigits_length]
  omega

/-! ## WRFLOAT of an exact integer part -/

/-- The digit's character, as the statement about the fraction writes it. -/
theorem digitChar_eq_ofNat (n : Nat) : digitChar n = BitVec.ofNat 8 (0x30 + n % 10) := (BitVec.ofNat_add _ _).symm

theorem digitByte_eq_ofNat (draws : RenderDraws) (k : Nat) :
    draws.digitByte k = BitVec.ofNat 8 (0x30 + (draws.digit k).val) := by
  rw [RenderDraws.digitByte, digitChar_eq_ofNat, Nat.mod_eq_of_lt (draws.digit k).isLt]

section ExactIntegerPart
variable {fmt : FloatFormat} {uintW ip : Nat} {x : fmt.Value} (htrunc : fmt.trunc (fmt.magnitude x) = some ip)
  (hip : ip < 2 ^ uintW)
include htrunc hip

/-- With an exact integer part WRFLOAT takes the expansion of R256. -/
theorem wrFloatWith_exact (draw : Nat → Byte) (special : List Byte) (L F : Byte) :
    wrFloatWith fmt uintW draw special x L F = wrNat ip (effectiveOffset L.toNat F.toNat) ++
      (0x2E#8 :: fractionDigits fmt uintW draw F.toNat 0 (fmt.sub (fmt.magnitude x) (fmt.ofNat ip))).map putChar := by
  simp [wrFloatWith, htrunc, hip]

/-- The integer part is padded so that the whole is L wide, if the point and the fraction leave it room (R257). -/
theorem wrFloatWith_length (draw : Nat → Byte) (special : List Byte) (L F : Byte) :
    (wrFloatWith fmt uintW draw special x L F).length =
      if F.toNat + 1 ≤ L.toNat then max L.toNat (digitCount ip + 1 + F.toNat) else digitCount ip + 1 + F.toNat := by
  rw [wrFloatWith_exact htrunc hip, List.length_append, wrNat_length, List.length_map, List.length_cons,
    fractionDigits_length, effectiveOffset]
  split <;> omega

end ExactIntegerPart

end Sys2Proof.Machine

open Sys2Proof Sys2Proof.Machine

/-- Settles O51: the count is the logarithm to base 10 and 1. -/
theorem digitCountIsLeast : Obligations.DigitCountIsLeast :=
  ⟨rfl, fun m hm => ⟨lt_pow_digitCount m, fun _ h => digitCount_le_of_lt_pow hm.ne' h⟩⟩

/-- Settles O52: the value read back is the magnitude modulo 10^n, and n digits hold the magnitude (R254). -/
theorem wrintWritesTheMagnitude : Obligations.WrintWritesTheMagnitude := by
  intro w v L
  refine ⟨decimalDigits v.toInt.natAbs (digitCount v.toInt.natAbs), wrNat_eq _ _, decimalDigits_length _ _,
    fun c => decimalDigits_range, ?_⟩
  rw [foldl_decimalDigits, Nat.mod_eq_of_lt (lt_pow_digitCount _), Nat.zero_mul, Nat.zero_add]

/-- Settles O53: the width is the same for any bytes as draws, those of I19 among them. -/
theorem wrfloatWidth : Obligations.WrfloatWidth := by
  intro fmt uintW ip draw special draws x L F htrunc hip
  exact ⟨wrFloatWith_length htrunc hip draw special L F, wrFloatWith_length htrunc hip draws.digitByte draws.special L F⟩

/-- Settles O57: digit k is read from the fraction multiplied k + 1 times by 10, by the cases of its whole part. -/
theorem wrfloatFractionDigits : Obligations.WrfloatFractionDigits := by
  intro fmt uintW ip draws x L F htrunc hip
  refine ⟨fractionDigits fmt uintW draws.digitByte F.toNat 0 (fmt.sub (fmt.magnitude x) (fmt.ofNat ip)),
    wrFloatWith_exact htrunc hip draws.digitByte draws.special L F, fractionDigits_length _ _ _ _ _ _,
    fractionDigits_range fmt uintW draws.digitByte (fun k => digitChar_range _) _ _ _, fun k hk => ⟨?_, ?_⟩⟩
  · intro t ht hlt
    simp only [fractionDigits_getElem? fmt uintW draws.digitByte F.toNat 0 k _ hk, ht, if_pos hlt, digitChar_eq_ofNat]
  · intro hpast
    rw [fractionDigits_getElem? fmt uintW draws.digitByte F.toNat 0 k _ hk, Nat.zero_add, ← digitByte_eq_ofNat]
    split
    next t ht => rw [if_neg (not_lt.mpr (hpast t ht))]
    next => rfl
end

section
/-! SUPPORT. A request that finds the block busy (R284). -/

namespace Sys2Proof.Machine

/-- The busy check comes first, before any decoding of the opcode (R287). -/
theorem acceptance_busy (cfg : Config) (r : Request) {s : State} (hb : s.busy = true) :
    acceptance cfg r s = raise .ovr s := by
  rw [acceptance, if_pos hb]

end Sys2Proof.Machine

open Sys2Proof Sys2Proof.Machine

/-- Settles O26: a request word's step is acceptance, whose first check is of the busy bit. -/
theorem busyRequestIsDroppedWithOvr : Obligations.BusyRequestIsDroppedWithOvr := by
  intro s req pat rest hi hb
  obtain ⟨hstep, -⟩ := acceptanceFollowsTheFourChecks
  have hbusy : ({ s with inputs := rest } : State).busy = true := hb
  rw [hstep s req pat rest hi, acceptance_busy _ _ hbusy, raise, setError]
end
